-- ==== Sys2Proof/Word.lean ====
section
/-! DEFINITION. The words of the core: bytes and the 9-bit program counter (00_scope.md R5, R6). -/

namespace Sys2Proof

/-- A byte: a memory cell, a register, an immediate, an operand byte; always unsigned (R6, R10, R21). -/
abbrev Byte := BitVec 8

/-- A program counter value: 9 bits, of which only 0..256 are ever held (10_state.md R14). -/
abbrev Pc := BitVec 9

end Sys2Proof
end

