-- ==== Sys2Proof/Config.lean ====
section
/-! DEFINITION. The parameters of the core (00_scope.md R5) that are values. Those that are widths and sizes stand where
they are used: `CELL_BITS` = `XLEN` = 8 and `PC_BITS` = 9 in Word.lean, `NREG` = 8 and `NFLAGS` = 3 in the fields of
`State`, `ADDR_MAX` = 255 (so `MEM_SIZE` = 256) in `inMemory`; the opcode map `OPC` is `opc` in Decode.lean.
There is no free value: the spec leaves no behaviour of this core open (93_implementation_defined.md). -/

namespace Sys2Proof.Config

/-- `SP_INDEX`: the register that PUSH, POP, CALL and RET use as stack pointer (10_state.md R12). -/
abbrev spIndex : Fin 8 := 7

/-- `SP_INIT`: the reset value of register 7. UNVERIFIED, unsafe for claims that name absolute stack addresses:
the default of the spec's decision D6 (log entry 2). -/
abbrev spInit : Byte := 0xF4

/-- `PC_INIT`: the reset value of the program counter. -/
abbrev pcInit : Pc := 0

/-- `LOAD_BASE`: the address of the first byte of the program image. -/
abbrev loadBase : Nat := 0

/-- What a cell that nothing has written reads as: 10_state.md R23 resets every cell outside the image to 0. -/
abbrev unlistedByte : Byte := 0

end Sys2Proof.Config
end

