-- ==== Sys2Proof/Machine/State.lean ====
section
/-! DEFINITION. The architectural state of the core, `(M, x, pc, E, L, G, run)` and `out` (10_state.md R9), the fault
record (60_exceptions.md R96), the reasons a step of the model can stop, and the state after reset (10_state.md R23). -/

namespace Sys2Proof.Machine

/-- The access tag of an `AddressOutOfRange` fault (60_exceptions.md R93). -/
inductive Access where
  /-- the opcode fetch, `pc = 256` -/
  | fetch
  /-- an operand byte beyond address 255 -/
  | operand
  /-- PUSH or CALL with SP = 0; also the tag of the store itself -/
  | stackWrite
  /-- POP or RET whose incremented SP would be 256; also the tag of the stack read, which is always in range -/
  | spUpdate
  /-- CALL whose return address would be 256 -/
  | returnAddress
  /-- an image longer than memory -/
  | load
  deriving DecidableEq, Repr

/-- Which operand byte: position 1 or 2 (60_exceptions.md R94). -/
inductive OperandPosition where
  | first | second
  deriving DecidableEq, Repr

/-- The distance of an operand byte from its opcode byte. -/
def OperandPosition.offset : OperandPosition → Nat
  | .first => 1
  | .second => 2

/-- The four kinds of fault (60_exceptions.md R90). -/
inductive FaultKind where
  | unimplementedOpcode | unsupportedALUOperation | addressOutOfRange | invalidRegisterIndex
  deriving DecidableEq, Repr

/-- The code of a kind: a label no program can read (60_exceptions.md R90; the spec's decision D22, log entry 27). -/
def FaultKind.code : FaultKind → Nat
  | .unimplementedOpcode => 1
  | .unsupportedALUOperation => 2
  | .addressOutOfRange => 3
  | .invalidRegisterIndex => 4

/-- A fault with what it records beside the `pc` (60_exceptions.md R96). -/
inductive FaultInfo where
  /-- the fetched byte is no assigned opcode (R91) -/
  | unimplementedOpcode (op : BitVec 8)
  /-- the ALU invoked with an unknown operation: raised by nothing (R92, 42_alu.md R73) -/
  | unsupportedALUOperation
  /-- the offending address, a mathematical integer, and the access tag (R93) -/
  | addressOutOfRange (addr : Int) (access : Access)
  /-- a register operand byte above 7 and its position (R94) -/
  | invalidRegisterIndex (byte : BitVec 8) (position : OperandPosition)
  deriving DecidableEq, Repr

/-- The kind of a fault. -/
def FaultInfo.kind : FaultInfo → FaultKind
  | .unimplementedOpcode _ => .unimplementedOpcode
  | .unsupportedALUOperation => .unsupportedALUOperation
  | .addressOutOfRange _ _ => .addressOutOfRange
  | .invalidRegisterIndex _ _ => .invalidRegisterIndex

/-- The fault record: the `pc` of the faulting instruction (none for a `load` fault) and the fault (R96). -/
structure FaultRecord where
  pc : Option (BitVec 9)
  info : FaultInfo
  deriving DecidableEq, Repr

/-- The run status, the only control state (10_state.md R18). -/
inductive RunStatus where
  | running
  | halted
  | faulted (record : FaultRecord)
  deriving DecidableEq, Repr

/-- The three condition flags; they have no packed form (10_state.md R16, R17). -/
structure Flags where
  e : Bool
  l : Bool
  g : Bool
  deriving DecidableEq, Repr

/-- Memory: the cells that differ from `Config.unlistedByte`, at strictly rising addresses (`Memory.wf`). -/
abbrev Memory := List Host.Cell

/-- The state of the machine (10_state.md R9; R22: there is no other). -/
structure State where
  /-- `M`: 256 byte cells (R21) -/
  mem : Memory
  /-- `x`: eight byte registers; register 7 is the stack pointer (R10, R12) -/
  regs : Vector (BitVec 8) 8
  /-- the program counter (R14) -/
  pc : BitVec 9
  /-- `E`, `L`, `G` (R16) -/
  flags : Flags
  /-- the run status with the fault record (R18, R19) -/
  run : RunStatus
  /-- the bytes handed to the output sink, oldest first (R20) -/
  out : List (BitVec 8)
  deriving DecidableEq, Repr

/-- Why `step` has no next state. Safe: the spec gives a stopped machine no step either (40_cycle_and_system.md R60;
log entry 4). The spec's own faults are not here: they are next states whose `run` is `faulted` (log entry 3). -/
inductive Fault where
  /-- raised by `step` alone, when `run = Halted`; safe -/
  | haltedHasNoStep
  /-- raised by `step` alone, when `run = Faulted(kind, info)`; safe -/
  | faultedHasNoStep (record : FaultRecord)
  deriving DecidableEq, Repr

/-- Why an instruction has no meaning. -/
inductive Refusal where
  /-- raised by an arm of `exec` whose instruction has no meaning yet; safe; no arm of this model raises it -/
  | notModelled (mnemonic : String)
  deriving DecidableEq, Repr

/-- The machine right after reset with the empty image: registers 0 except SP, `pc` 0, flags clear, memory 0, running,
nothing printed (10_state.md R23, 70_reset_and_hazards.md R111; log entry 5). `boot` gives reset with any image. -/
def State.reset : State where
  mem := []
  regs := Vector.mk #[0, 0, 0, 0, 0, 0, 0, Config.spInit] rfl
  pc := Config.pcInit
  flags := { e := false, l := false, g := false }
  run := .running
  out := []

end Sys2Proof.Machine
end

