-- ==== Sys2Proof/Machine/Flags.lean ====
section
/-! DEFINITION. The one flag computation of the core, that of CMP (42_alu.md R69). -/

namespace Sys2Proof.Machine

/-- E, L, G of an unsigned comparison of `u` (first operand) with `v` (second operand). That L means "first less than
second" and G "first greater" is the spec's decision D10 (log entry 16). -/
def compareFlags (u v : Byte) : Flags where
  e := decide (u = v)
  l := decide (u < v)
  g := decide (v < u)

end Sys2Proof.Machine
end

