-- ==== Sys2Proof/Syntax.lean ====
section
/-! DEFINITION. The thirteen instructions (30_encoding.md R45) and the pieces of an opcode byte (R39). -/

namespace Sys2Proof

/-- The thirteen instruction names, in the order of the source's handler table (R45). -/
inductive Mnemonic where
  | hlt | ldi | prn | mul | add | push | pop | call | ret | cmp | jmp | jeq | jne
  deriving DecidableEq, Repr

/-- The bit fields of an opcode byte (R39, R40). -/
structure OpcodeFields where
  /-- bits 7..6: the number of operand bytes that follow -/
  operandCount : BitVec 2
  /-- bit 5: the advisory ALU marker, tested by no rule (42_alu.md R72) -/
  isAlu : Bool
  /-- bit 4: the instruction writes `pc` itself -/
  setsPcDirectly : Bool
  /-- bits 3..0: the identifier; not sufficient to select an instruction (R41) -/
  instructionId : BitVec 4
  deriving DecidableEq, Repr

/-- An instruction with its operand bytes, each one whole byte as it stands in memory (R42). A register operand is
kept as its BYTE and not as an index, because a byte above 7 does not stop decoding: the instruction itself raises
`InvalidRegisterIndex` (R43, 60_exceptions.md R94; log entry 8). -/
inductive Instr where
  | hlt
  | ldi (r imm : Byte)
  | prn (r : Byte)
  | mul (a b : Byte)
  | add (a b : Byte)
  | push (r : Byte)
  | pop (r : Byte)
  | call (r : Byte)
  | ret
  | cmp (a b : Byte)
  | jmp (r : Byte)
  | jeq (r : Byte)
  | jne (r : Byte)
  deriving DecidableEq, Repr

/-- The name of an instruction. -/
def Instr.mnemonic : Instr → Mnemonic
  | .hlt => .hlt
  | .ldi _ _ => .ldi
  | .prn _ => .prn
  | .mul _ _ => .mul
  | .add _ _ => .add
  | .push _ => .push
  | .pop _ => .pop
  | .call _ => .call
  | .ret => .ret
  | .cmp _ _ => .cmp
  | .jmp _ => .jmp
  | .jeq _ => .jeq
  | .jne _ => .jne

/-- The operand bytes of an instruction, in memory order (R38). -/
def Instr.operands : Instr → List Byte
  | .hlt => []
  | .ldi r imm => [r, imm]
  | .prn r => [r]
  | .mul a b => [a, b]
  | .add a b => [a, b]
  | .push r => [r]
  | .pop r => [r]
  | .call r => [r]
  | .ret => []
  | .cmp a b => [a, b]
  | .jmp r => [r]
  | .jeq r => [r]
  | .jne r => [r]

/-- The operand bytes that name registers, in operand order: all of them but LDI's immediate (R42). -/
def Instr.registerOperands : Instr → List Byte
  | .hlt => []
  | .ldi r _ => [r]
  | .prn r => [r]
  | .mul a b => [a, b]
  | .add a b => [a, b]
  | .push r => [r]
  | .pop r => [r]
  | .call r => [r]
  | .ret => []
  | .cmp a b => [a, b]
  | .jmp r => [r]
  | .jeq r => [r]
  | .jne r => [r]

end Sys2Proof
end

