-- ==== Sys2Proof/WellFormed.lean ====
section
/-! DEFINITION. Well-formed instructions: the only reserved bits of a legal instruction are bits 7..3 of each register
operand byte (30_encoding.md R43, R49). An ill-formed instruction still decodes and still has a meaning: it raises
`InvalidRegisterIndex`. -/

namespace Sys2Proof

/-- `Reg(b)` succeeds on this byte: it names one of the eight registers (R43). -/
def namesRegister (b : Byte) : Bool := decide (b.toNat ≤ 7)

/-- Every register operand byte is in 0..7. -/
def Instr.wellFormed (i : Instr) : Bool := i.registerOperands.all namesRegister

end Sys2Proof
end

