-- ==== Sys2Proof/Decode.lean ====
section
/-! DEFINITION. The opcode map, the Instruction Decoder, the decoding of a byte list and the encoder
(30_encoding.md). Everything here is total and structurally recursive. -/

namespace Sys2Proof

/-- The parameter `OPC`: the opcode byte of each instruction (R45). UNVERIFIED, unsafe for claims stated over bytes:
the values are the default of the spec's decision D1 (log entry 1). -/
def opc : Mnemonic → Byte
  | .hlt => 0x01
  | .ldi => 0x82
  | .prn => 0x47
  | .mul => 0xA2
  | .add => 0xA0
  | .push => 0x45
  | .pop => 0x46
  | .call => 0x50
  | .ret => 0x11
  | .cmp => 0xA7
  | .jmp => 0x54
  | .jeq => 0x55
  | .jne => 0x56

/-- The thirteen names as a list. -/
def allMnemonics : List Mnemonic :=
  [.hlt, .ldi, .prn, .mul, .add, .push, .pop, .call, .ret, .cmp, .jmp, .jeq, .jne]

/-- The lookup of a handler by the whole opcode byte (R41, R56); `none` for the 243 illegal bytes (R48). -/
def lookup (op : Byte) : Option Mnemonic := allMnemonics.find? (fun m => opc m == op)

/-- The Instruction Decoder: the bit fields of one byte. It has no error path (R40). -/
def decodeFields (op : Byte) : OpcodeFields where
  operandCount := op.extractLsb' 6 2
  isAlu := op.getLsbD 5
  setsPcDirectly := op.getLsbD 4
  instructionId := op.extractLsb' 0 4

/-- How many operand bytes follow this opcode byte (bits 7..6). -/
def operandCount (op : Byte) : Nat := (decodeFields op).operandCount.toNat

/-- The total length of an instruction whose first byte is this one (R38, R40). -/
def instrLength (op : Byte) : Nat := operandCount op + 1

/-- Why a byte list is not the beginning of an instruction. -/
inductive DecodeReject where
  /-- there is no opcode byte -/
  | noOpcode
  /-- the first byte is none of the thirteen (R48) -/
  | unassigned (op : Byte)
  /-- the opcode is assigned and an operand byte is missing -/
  | missingOperand
  deriving DecidableEq, Repr

/-- Format `Z`: no operand byte. -/
def takeZero (i : Instr) (bs : List Byte) : Except DecodeReject (Instr × List Byte) := .ok (i, bs)

/-- Format `R`: one operand byte. -/
def takeOne (f : Byte → Instr) : List Byte → Except DecodeReject (Instr × List Byte)
  | b :: bs => .ok (f b, bs)
  | [] => .error .missingOperand

/-- Formats `RR` and `RI`: two operand bytes, the first one at the lower address (20_memory.md R27). -/
def takeTwo (f : Byte → Byte → Instr) : List Byte → Except DecodeReject (Instr × List Byte)
  | b₁ :: b₂ :: bs => .ok (f b₁ b₂, bs)
  | [_] => .error .missingOperand
  | [] => .error .missingOperand

/-- The operand bytes of the named instruction, by its format (R38, R45). -/
def takeOperands : Mnemonic → List Byte → Except DecodeReject (Instr × List Byte)
  | .hlt => takeZero .hlt
  | .ldi => takeTwo .ldi
  | .prn => takeOne .prn
  | .mul => takeTwo .mul
  | .add => takeTwo .add
  | .push => takeOne .push
  | .pop => takeOne .pop
  | .call => takeOne .call
  | .ret => takeZero .ret
  | .cmp => takeTwo .cmp
  | .jmp => takeOne .jmp
  | .jeq => takeOne .jeq
  | .jne => takeOne .jne

/-- Decode the instruction a byte list begins with; answer it and the bytes after it (R38, R41, R50). -/
def decode : List Byte → Except DecodeReject (Instr × List Byte)
  | [] => .error .noOpcode
  | op :: bs =>
    match lookup op with
    | none => .error (.unassigned op)
    | some m => takeOperands m bs

/-- The bytes of an instruction: its opcode byte, then its operand bytes at the next higher addresses (R38, R45). -/
def encode (i : Instr) : List Byte := opc i.mnemonic :: i.operands

/-- The bytes of the longest instruction, taken from a number whose bit 0 is bit 0 of the first byte and whose bits
from `nbits` up are 0: how spec/opcode_table.json numbers an instruction's bits. -/
def tableBytes (nbits w : Nat) : List Byte :=
  let v := w % 2 ^ nbits
  [BitVec.ofNat 8 v, BitVec.ofNat 8 (v / 2 ^ 8), BitVec.ofNat 8 (v / 2 ^ 16)]

/-- The instruction the decoder reads from an instruction whose bits are `w`. -/
def decodeTableWord (nbits w : Nat) : Option Instr :=
  match decode (tableBytes nbits w) with
  | .ok (i, _) => some i
  | .error _ => none

end Sys2Proof
end

