-- ==== Sys2Proof/Machine/Ops.lean ====
section
/-! DEFINITION. The named operations over memory, registers, `pc`, `out` and `run`, and raising a fault. Registers,
`pc` and memory are read and written here and nowhere else. -/

namespace Sys2Proof.Machine

/-! ## Memory (20_memory.md) -/

/-- The byte of a cell; a cell not listed reads as `Config.unlistedByte`. -/
def Memory.read : Memory → Nat → Byte
  | [], _ => Config.unlistedByte
  | (k, w) :: m, a => if k = a then w else Memory.read m a

/-- Memory without any entry for `a`. -/
def Memory.erase : Memory → Nat → Memory
  | [], _ => []
  | (k, w) :: m, a => if k = a then Memory.erase m a else (k, w) :: Memory.erase m a

/-- Memory with an entry for `a` placed before the first higher address. -/
def Memory.insert : Memory → Nat → Byte → Memory
  | [], a, v => [(a, v)]
  | (k, w) :: m, a, v => if a < k then (a, v) :: (k, w) :: m else (k, w) :: Memory.insert m a v

/-- Write one cell: the old entry goes, and a new one comes unless the byte is what an unlisted cell reads as. -/
def Memory.write (m : Memory) (a : Nat) (v : Byte) : Memory :=
  if v = Config.unlistedByte then Memory.erase m a else Memory.insert (Memory.erase m a) a v

/-- The addresses begin at `lo` or higher, rise strictly and stay below `MEM_SIZE`, and no entry holds
`Config.unlistedByte`. -/
def Memory.sortedFrom : Nat → Memory → Bool
  | _, [] => true
  | lo, (k, w) :: m =>
    decide (lo ≤ k) && decide (k < 256) && decide (w ≠ Config.unlistedByte) && Memory.sortedFrom (k + 1) m

/-- The canonical form of memory: equal memories are equal lists. -/
def Memory.wf (m : Memory) : Bool := Memory.sortedFrom 0 m

/-- An address, as a mathematical integer, is one of the 256 cells (R24, R25). -/
abbrev inMemory (addr : Int) : Prop := 0 ≤ addr ∧ addr ≤ 255

/-- `MemRead(addr, 1)`: the byte of the cell, or `AddressOutOfRange`; no address is reduced modulo 256 (R24). -/
def memRead (s : State) (addr : Int) (access : Access) : Except FaultInfo Byte :=
  if inMemory addr then .ok (Memory.read s.mem addr.toNat) else .error (.addressOutOfRange addr access)

/-- `MemWrite(addr, 1, v)`: the cell takes the byte, or `AddressOutOfRange` (R25). -/
def memWrite (s : State) (addr : Int) (v : Byte) (access : Access) : Except FaultInfo State :=
  if inMemory addr then .ok { s with mem := Memory.write s.mem addr.toNat v }
  else .error (.addressOutOfRange addr access)

/-! ## Registers (10_state.md R10 to R13) -/

/-- `x[i]`. -/
def State.reg (s : State) (i : Fin 8) : Byte := s.regs.get i

/-- `x[i] <- v`; no register is hard-wired (R10). -/
def State.setReg (s : State) (i : Fin 8) (v : Byte) : State :=
  { s with regs := s.regs.set i.val v i.isLt }

/-- `SP`, the other spelling of `x[7]` (R12). -/
def State.sp (s : State) : Byte := s.reg Config.spIndex

/-- `SP -= 1`; at SP = 0 it raises `AddressOutOfRange(-1, stack_write)` (43_stack.md R75, the spec's decision D7). -/
def decSp (s : State) : Except FaultInfo State :=
  if s.sp = 0 then .error (.addressOutOfRange (-1) .stackWrite) else .ok (s.setReg Config.spIndex (s.sp - 1))

/-- `SP += 1`; at SP = 255 it raises `AddressOutOfRange(256, sp_update)` (43_stack.md R76, the spec's decision D7). -/
def incSp (s : State) : Except FaultInfo State :=
  if s.sp = 255 then .error (.addressOutOfRange 256 .spUpdate) else .ok (s.setReg Config.spIndex (s.sp + 1))

/-! ## The program counter (10_state.md R14, R15) -/

/-- A byte as a program counter value: zero extension, which changes no numeric value (00_scope.md R7). -/
def zextPc (b : Byte) : Pc := b.setWidth 9

/-- `pc <- t`. -/
def State.setPc (s : State) (t : Pc) : State := { s with pc := t }

/-- `pc <- pc + n`, not reduced modulo 256 (40_cycle_and_system.md R59). After a fetch the sum is at most 256. -/
def State.advance (s : State) (n : Nat) : State := s.setPc (s.pc + BitVec.ofNat 9 n)

/-! ## The output sequence, the flags and the run status -/

/-- `out <- out ++ [v]` (10_state.md R20). -/
def State.emit (s : State) (v : Byte) : State := { s with out := s.out ++ [v] }

/-- Write all three flags at once (10_state.md R16). -/
def State.setFlags (s : State) (f : Flags) : State := { s with flags := f }

/-- `run <- r`. -/
def State.setRun (s : State) (r : RunStatus) : State := { s with run := r }

/-! ## Faults (60_exceptions.md R96, R98) -/

/-- The record of a fault of the instruction at `pc` (R96). -/
def State.faultRecord (s : State) (info : FaultInfo) : FaultRecord := { pc := some s.pc, info := info }

/-- `raise K(info)`: only `run` changes, so `pc` stays at the faulting instruction and nothing is saved anywhere (R98).
There is no return from a fault (R100): only `boot` starts a new run. -/
def raise (s : State) (info : FaultInfo) : State := s.setRun (.faulted (s.faultRecord info))

/-- The end of a step: an instruction that raised nothing takes effect as a whole, one that raised leaves the state `s`
it began in, with the fault raised (40_cycle_and_system.md R58, 60_exceptions.md R98; log entry 3). -/
def commit (s : State) : Except FaultInfo State → Host.Outcome State Fault Refusal
  | .ok t => .next t
  | .error info => .next (raise s info)

end Sys2Proof.Machine
end

