-- ==== Sys2Proof/Machine/Operands.lean ====
section
/-! DEFINITION. The operand forms (30_encoding.md R42 to R44): a register operand byte, a pair of them, and an
immediate, which is its byte and needs no operation. -/

namespace Sys2Proof.Machine

/-- `Reg(b)`: the register a byte names, or `InvalidRegisterIndex` with the byte and its position; the upper five bits
are never dropped (R43, 60_exceptions.md R94; the spec's decision D8, log entry 14). -/
def regOperand (b : Byte) (position : OperandPosition) : Except FaultInfo (Fin 8) :=
  if h : b.toNat < 8 then .ok ⟨b.toNat, h⟩ else .error (.invalidRegisterIndex b position)

/-- The two registers of format `RR`, the first operand checked before the second (R43). -/
def regOperands (a b : Byte) : Except FaultInfo (Fin 8 × Fin 8) := do
  let ra ← regOperand a .first
  let rb ← regOperand b .second
  return (ra, rb)

end Sys2Proof.Machine
end

