-- ==== Sys2Proof/Machine/Alu.lean ====
section
/-! DEFINITION. The ALU and its three instructions MUL, ADD, CMP (42_alu.md). The operation comes from the decoded
opcode alone, so `UnsupportedALUOperation` has no producer (R73). -/

namespace Sys2Proof.Machine

/-- ADD's result: the low 8 bits of the 9-bit sum (R67, R70). -/
def aluAdd (u v : Byte) : Byte := BitVec.ofNat 8 (u.toNat + v.toNat)

/-- MUL's result: the low 8 bits of the 16-bit unsigned product (R68, R70). -/
def aluMul (u v : Byte) : Byte := BitVec.ofNat 8 (u.toNat * v.toNat)

/-- `apply(op, dest, src)` for an operation that stores into its first register and touches no flag (R66). -/
def applyAlu (op : Byte → Byte → Byte) (a b : Byte) (s : State) : Except FaultInfo State := do
  let (a, b) ← regOperands a b
  return (s.setReg a (op (s.reg a) (s.reg b))).advance 3

/-- MUL a, b: `x[a] <- (x[a] * x[b]) mod 256` (R68). -/
def execMul (a b : Byte) (s : State) : Host.Outcome State Fault Refusal :=
  commit s (applyAlu aluMul a b s)

/-- ADD a, b: `x[a] <- (x[a] + x[b]) mod 256` (R67). -/
def execAdd (a b : Byte) (s : State) : Host.Outcome State Fault Refusal :=
  commit s (applyAlu aluAdd a b s)

/-- CMP a, b: write E, L and G; no register (R69). -/
def execCmp (a b : Byte) (s : State) : Host.Outcome State Fault Refusal :=
  commit s do
    let (a, b) ← regOperands a b
    return (s.setFlags (compareFlags (s.reg a) (s.reg b))).advance 3

end Sys2Proof.Machine
end

