-- ==== Sys2Proof/Machine/Control.lean ====
section
/-! DEFINITION. CALL, RET, JMP, JEQ, JNE (44_control_transfer.md). All five write `pc` themselves (R79). -/

namespace Sys2Proof.Machine

/-- The return address of a CALL, `pc + 2`; 256 does not fit a cell (R80; the spec's decision D14, log entry 20). -/
def returnAddress (s : State) : Except FaultInfo Byte :=
  if s.pc.toNat + 2 ≤ 255 then .ok (BitVec.ofNat 8 (s.pc.toNat + 2))
  else .error (.addressOutOfRange 256 .returnAddress)

/-- CALL r: push `pc + 2`, then `pc <- x[r]`, `x[r]` read after the update of SP (R80). -/
def execCall (r : Byte) (s : State) : Host.Outcome State Fault Refusal :=
  commit s do
    let r ← regOperand r .first
    let ret ← returnAddress s
    let s₁ ← decSp s
    let s₂ ← memWrite s₁ s₁.sp.toNat ret .stackWrite
    return s₂.setPc (zextPc (s₂.reg r))

/-- RET: `pc <- M[SP]`, then `SP += 1` (R81). -/
def execRet (s : State) : Host.Outcome State Fault Refusal :=
  commit s do
    let t ← memRead s s.sp.toNat .spUpdate
    let s₁ ← incSp s
    return s₁.setPc (zextPc t)

/-- JMP r: `pc <- x[r]` (R82). -/
def execJmp (r : Byte) (s : State) : Host.Outcome State Fault Refusal :=
  commit s do
    let r ← regOperand r .first
    return s.setPc (zextPc (s.reg r))

/-- A conditional jump: the operand byte is checked before the condition, and a jump not taken moves `pc` to the next
instruction itself (R83, R84; the spec's decision D13, log entry 19). -/
def branch (taken : Bool) (r : Byte) (s : State) : Except FaultInfo State := do
  let r ← regOperand r .first
  return if taken then s.setPc (zextPc (s.reg r)) else s.advance 2

/-- JEQ r: jump if E = 1 (R83). -/
def execJeq (r : Byte) (s : State) : Host.Outcome State Fault Refusal :=
  commit s (branch s.flags.e r s)

/-- JNE r: jump if E = 0 (R84). -/
def execJne (r : Byte) (s : State) : Host.Outcome State Fault Refusal :=
  commit s (branch (!s.flags.e) r s)

end Sys2Proof.Machine
end

