-- ==== Sys2Proof/Machine/LoadImmediate.lean ====
section
/-! DEFINITION. LDI (41_load_immediate.md). -/

namespace Sys2Proof.Machine

/-- LDI r, imm: `x[r] <- imm`; into register 7 it moves the stack, unchecked (R64, R65). -/
def execLdi (r imm : Byte) (s : State) : Host.Outcome State Fault Refusal :=
  commit s do
    let r ← regOperand r .first
    return (s.setReg r imm).advance 3

end Sys2Proof.Machine
end

