-- ==== Sys2Proof/Machine/Stack.lean ====
section
/-! DEFINITION. PUSH and POP (43_stack.md). Later lines see the register writes of earlier ones, which is what decides
PUSH R7 and POP R7 (40_cycle_and_system.md R58; the spec's decision D12, log entry 18). -/

namespace Sys2Proof.Machine

/-- PUSH r: `SP -= 1`, then `M[SP] <- x[r]`, `x[r]` read after the update of SP (R75). -/
def execPush (r : Byte) (s : State) : Host.Outcome State Fault Refusal :=
  commit s do
    let r ← regOperand r .first
    let s₁ ← decSp s
    let s₂ ← memWrite s₁ s₁.sp.toNat (s₁.reg r) .stackWrite
    return s₂.advance 2

/-- POP r: `x[r] <- M[SP]`, then `SP += 1` on the register as it now is (R76). -/
def execPop (r : Byte) (s : State) : Host.Outcome State Fault Refusal :=
  commit s do
    let r ← regOperand r .first
    let v ← memRead s s.sp.toNat .spUpdate
    let s₂ ← incSp (s.setReg r v)
    return s₂.advance 2

end Sys2Proof.Machine
end

