-- ==== Sys2Proof/Machine/System.lean ====
section
/-! DEFINITION. HLT and PRN (40_cycle_and_system.md). -/

namespace Sys2Proof.Machine

/-- HLT: `run <- Halted`, and `pc` does advance (R61; the spec's decision D11, log entry 17). -/
def execHlt (s : State) : Host.Outcome State Fault Refusal :=
  commit s (.ok ((s.setRun .halted).advance 1))

/-- PRN r: hand the byte `x[r]` to the output sink (R62). -/
def execPrn (r : Byte) (s : State) : Host.Outcome State Fault Refusal :=
  commit s do
    let r ← regOperand r .first
    return (s.emit (s.reg r)).advance 2

end Sys2Proof.Machine
end

