-- ==== Sys2Proof/Machine/Dispatch.lean ====
section
/-! DEFINITION. Step 5 of the cycle, with the instruction's own `pc` update (40_cycle_and_system.md R54, R59). -/

namespace Sys2Proof.Machine

/-- Execute one instruction whose bytes have been fetched at `s.pc`. -/
def exec (i : Instr) (s : State) : Host.Outcome State Fault Refusal :=
  match i with
  | .hlt => Sys2Proof.Machine.execHlt s
  | .ldi r imm => Sys2Proof.Machine.execLdi r imm s
  | .prn r => Sys2Proof.Machine.execPrn r s
  | .mul a b => Sys2Proof.Machine.execMul a b s
  | .add a b => Sys2Proof.Machine.execAdd a b s
  | .push r => Sys2Proof.Machine.execPush r s
  | .pop r => Sys2Proof.Machine.execPop r s
  | .call r => Sys2Proof.Machine.execCall r s
  | .ret => Sys2Proof.Machine.execRet s
  | .cmp a b => Sys2Proof.Machine.execCmp a b s
  | .jmp r => Sys2Proof.Machine.execJmp r s
  | .jeq r => Sys2Proof.Machine.execJeq r s
  | .jne r => Sys2Proof.Machine.execJne r s

end Sys2Proof.Machine
end

