-- ==== Sys2Proof/Machine/Fetch.lean ====
section
/-! DEFINITION. Steps 1 to 4 of the cycle: fetch, decode and lookup, operand fetch (40_cycle_and_system.md R54 to R57),
and the placing of a word where the next fetch reads. -/

namespace Sys2Proof.Machine

/-- Read `n` operand bytes from `addr` on, lowest address first (R57). -/
def readOperands (s : State) : Nat → Int → Except FaultInfo (List Byte)
  | 0, _ => .ok []
  | n + 1, addr => do
    let b ← memRead s addr .operand
    let bs ← readOperands s n (addr + 1)
    return b :: bs

/-- The bytes of the instruction at `pc`: the opcode byte, looked up before any operand byte is read, then exactly as
many operand bytes as its bits 7..6 say (R55 to R57). -/
def fetchBytes (s : State) : Except FaultInfo (List Byte) := do
  let op ← memRead s s.pc.toNat .fetch
  match lookup op with
  | none => .error (.unimplementedOpcode op)
  | some _ =>
    let bs ← readOperands s (operandCount op) (s.pc.toNat + 1)
    return op :: bs

/-- The fault that a refusal of the decoder is. On the bytes of `fetchBytes` the decoder refuses nothing
(`fetchInstr_of_fetchBytes` in Laws/Cycle.lean). -/
def rejectFault : DecodeReject → FaultInfo
  | .noOpcode => .addressOutOfRange 256 .fetch
  | .unassigned op => .unimplementedOpcode op
  | .missingOperand => .addressOutOfRange 256 .operand

/-- The instruction at `pc`, or the fault its fetch raises (R54 steps 1 to 4). -/
def fetchInstr (s : State) : Except FaultInfo Instr := do
  let bs ← fetchBytes s
  match decode bs with
  | .ok (i, _) => .ok i
  | .error r => .error (rejectFault r)

/-- Write a list of bytes into memory from address `a` on. -/
def writeBytes : Memory → Nat → List Byte → Memory
  | m, _, [] => m
  | m, a, b :: bs => writeBytes (Memory.write m a b) (a + 1) bs

/-- Where a longest instruction fits: at `pc`, or at address 0 when memory ends before its third byte (log entry 6). -/
def placeAddress (s : State) : Nat := if s.pc.toNat + 3 ≤ 256 then s.pc.toNat else 0

/-- The machine with these bytes placed where it fetches next, and running so that it does fetch (log entry 6). -/
def placeBytes (s : State) (bs : List Byte) : State :=
  { s with mem := writeBytes s.mem (placeAddress s) bs, pc := BitVec.ofNat 9 (placeAddress s), run := .running }

end Sys2Proof.Machine
end

