-- ==== Sys2Proof/Machine/Step.lean ====
section
/-! DEFINITION. One step of the machine (40_cycle_and_system.md R54, R60). -/

namespace Sys2Proof.Machine

/-- Fetch, decode, execute; a fault of the fetch is raised like any other. A machine that is not running has no step
(R60; log entry 4). -/
def step (s : State) : Host.Outcome State Fault Refusal :=
  match s.run with
  | .running =>
    match fetchInstr s with
    | .ok i => exec i s
    | .error info => commit s (.error info)
  | .halted => .fault .haltedHasNoStep
  | .faulted record => .fault (.faultedHasNoStep record)

/-- The machine with one table word placed where `step` fetches its next instruction (log entry 6). -/
def State.withFetchWord (s : State) (nbits w : Nat) : State := placeBytes s (tableBytes nbits w)

end Sys2Proof.Machine
end

