-- ==== Sys2Proof/Machine/Sink.lean ====
section
/-! DEFINITION. The text of a PRN emission as the output sink renders it (40_cycle_and_system.md R63). It is no part of
the machine's step; the state holds the bytes (log entry 23). -/

namespace Sys2Proof.Machine

/-- The digits of the shortest decimal numeral of a byte, most significant first. -/
def decimalDigits (v : Byte) : List Nat :=
  if 100 ≤ v.toNat then [v.toNat / 100, v.toNat / 10 % 10, v.toNat % 10]
  else if 10 ≤ v.toNat then [v.toNat / 10, v.toNat % 10]
  else [v.toNat]

/-- The character codes of one emission: the numeral, then one newline. -/
def emissionText (v : Byte) : List Nat := (decimalDigits v).map (48 + ·) ++ [10]

/-- What the sink shows for a whole output sequence. -/
def sinkText (out : List Byte) : List Nat := (out.map emissionText).flatten

end Sys2Proof.Machine
end

