-- ==== Sys2Proof/Machine/Boot.lean ====
section
/-! DEFINITION. Reset with a program image: construction, load, start (70_reset_and_hazards.md R111, 20_memory.md R33). -/

namespace Sys2Proof.Machine

/-- The record of a refused load: no instruction, so no `pc` (60_exceptions.md R93, R96). -/
def loadRefused : FaultRecord := { pc := none, info := .addressOutOfRange 256 .load }

/-- `load(img)` and the start of the run, on a machine just constructed: byte i goes to cell i; an image of more than
256 bytes is refused and there is no run (R33; the spec's decision D16, log entry 22). -/
def boot (img : List Byte) : Except FaultRecord State :=
  if img.length ≤ 256 then
    .ok { State.reset with mem := writeBytes State.reset.mem Config.loadBase img }
  else .error loadRefused

end Sys2Proof.Machine
end

