-- ==== Sys2Proof/Safety.lean ====
section
/-! DEFINITION. What claims are stated in: an instruction lying at `pc`, the faults an instruction may raise, a fault
record that tells the truth about its state, and the invariant of the machine. -/

namespace Sys2Proof.Machine

/-- The opcode byte of an instruction. -/
def opcodeOf (i : Instr) : Byte := opc i.mnemonic

/-- The bytes lie in memory from `pc` on, all of them in 0..255 (40_cycle_and_system.md R55, R57). -/
def BytesAtPc (s : State) (bs : List Byte) : Prop :=
  s.pc.toNat + bs.length ≤ 256 ∧ ∀ k, (h : k < bs.length) → Memory.read s.mem (s.pc.toNat + k) = bs[k]

/-- Address `a` is one of the cells the instruction occupies at `pc`. -/
def OwnByte (s : State) (i : Instr) (a : Nat) : Prop := s.pc.toNat ≤ a ∧ a < s.pc.toNat + (encode i).length

/-- The byte at `pc`. -/
def byteAtPc (s : State) : Byte := Memory.read s.mem s.pc.toNat

/-- The instruction has a register operand byte at this position with this value. -/
def hasRegisterByte (i : Instr) (position : OperandPosition) (b : Byte) : Bool :=
  match position, i.registerOperands with
  | .first, c :: _ => c == b
  | .second, [_, c] => c == b
  | _, _ => false

/-- The columns `InvalidRegisterIndex`, `stack_write`, `sp_update` and `return_address` of the per-instruction fault
table (60_exceptions.md R95): what the execute part of an instruction can raise. -/
def mayRaise (i : Instr) : FaultInfo → Bool
  | .invalidRegisterIndex b position => hasRegisterByte i position b && !namesRegister b
  | .addressOutOfRange a .stackWrite =>
    decide (a = -1) && (decide (i.mnemonic = .push) || decide (i.mnemonic = .call))
  | .addressOutOfRange a .spUpdate =>
    decide (a = 256) && (decide (i.mnemonic = .pop) || decide (i.mnemonic = .ret))
  | .addressOutOfRange a .returnAddress => decide (a = 256) && decide (i.mnemonic = .call)
  | .addressOutOfRange _ .fetch => false
  | .addressOutOfRange _ .operand => false
  | .addressOutOfRange _ .load => false
  | .unimplementedOpcode _ => false
  | .unsupportedALUOperation => false

/-- An instruction with this property lies at `pc`, its execute part may raise this fault (60_exceptions.md R95), and
nothing of a higher priority stands in the way: its register operand bytes are legal (R97). -/
def RaisedAtPc (s : State) (info : FaultInfo) (p : Instr → Prop) : Prop :=
  ∃ i, BytesAtPc s (encode i) ∧ mayRaise i info = true ∧ i.wellFormed = true ∧ p i

/-- The fault is one that the state itself shows: because faults are precise (60_exceptions.md R98), the state still
has the cause that R91 to R94 name. A record that blames a register operand byte names one that the instruction at `pc`
has at that position: no immediate and no byte behind the instruction. -/
def Describes (info : FaultInfo) (s : State) : Prop :=
  match info with
  | .unimplementedOpcode op => s.pc.toNat ≤ 255 ∧ byteAtPc s = op ∧ lookup op = none
  | .unsupportedALUOperation => False
  | .invalidRegisterIndex b position =>
    ∃ i, BytesAtPc s (encode i) ∧ mayRaise i (.invalidRegisterIndex b position) = true
  | .addressOutOfRange a .fetch => a = 256 ∧ s.pc.toNat = 256
  | .addressOutOfRange a .operand =>
    a = 256 ∧ s.pc.toNat ≤ 255 ∧ (lookup (byteAtPc s)).isSome ∧ 255 < s.pc.toNat + operandCount (byteAtPc s)
  | .addressOutOfRange a .stackWrite => RaisedAtPc s (.addressOutOfRange a .stackWrite) fun _ => s.sp = 0
  | .addressOutOfRange a .spUpdate => RaisedAtPc s (.addressOutOfRange a .spUpdate) fun i =>
    (if i.registerOperands = [7] then Memory.read s.mem s.sp.toNat else s.sp) = 255
  | .addressOutOfRange a .returnAddress =>
    RaisedAtPc s (.addressOutOfRange a .returnAddress) fun _ => s.pc.toNat = 254
  | .addressOutOfRange _ .load => False

/-- The invariant of the machine: memory is canonical, `pc` is in 0..256 (10_state.md R14), a halted machine stands
just behind an HLT (40_cycle_and_system.md R61), and a fault record tells the truth (60_exceptions.md R96, R98). -/
structure Inv (s : State) : Prop where
  memory : Memory.wf s.mem = true
  pcRange : s.pc.toNat ≤ 256
  halted : s.run = .halted → 1 ≤ s.pc.toNat ∧ lookup (Memory.read s.mem (s.pc.toNat - 1)) = some .hlt
  faulted : ∀ record, s.run = .faulted record → record.pc = some s.pc ∧ Describes record.info s

end Sys2Proof.Machine
end

