-- ==== Sys2Proof/Certificates/Slice0/Obligations.lean ====
section
/-! DEFINITION. The statements about the model, from the numbered rules of spec/. A statement whose docstring names a
decision D<n> or a log entry rests on that choice and not on the source's own words. -/

open Sys2Proof Sys2Proof.Machine

/-! ## Reset, load and the invariant -/

/-- The reset table (10_state.md R23) for the empty image. SP's value is the spec's decision D6 (log entry 2); that
reset means reset with the empty image is log entry 5. -/
def Obligations.ResetStateIsAsTabled : Prop :=
  (∀ r : Fin 8, State.reset.reg r = if r = 7 then 0xF4 else 0) ∧ State.reset.pc = 0 ∧
    State.reset.flags.e = false ∧ State.reset.flags.l = false ∧ State.reset.flags.g = false ∧
    (∀ a, Memory.read State.reset.mem a = 0) ∧ State.reset.run = .running ∧ State.reset.out = []

/-- The load contract (20_memory.md R33) and what reset leaves beside memory (10_state.md R23). The refusal of an image
of more than 256 bytes is the spec's decision D16 (log entry 22). -/
def Obligations.LoadPlacesTheImageOrIsRefused : Prop :=
  ∀ img : List Byte,
    (img.length ≤ 256 → ∃ s, boot img = .ok s ∧
      (∀ a, (h : a < img.length) → Memory.read s.mem a = img[a]) ∧
      (∀ a, img.length ≤ a → Memory.read s.mem a = 0) ∧
      s.regs = State.reset.regs ∧ s.pc = 0 ∧ s.flags = State.reset.flags ∧ s.run = .running ∧ s.out = []) ∧
    (256 < img.length → boot img = .error { pc := none, info := .addressOutOfRange 256 .load })

/-- The reset state meets the invariant. -/
def Obligations.ResetMeetsTheInvariant : Prop := Inv State.reset

/-- Every machine that comes out of a load meets the invariant, whatever the image. -/
def Obligations.BootedMachineMeetsTheInvariant : Prop :=
  ∀ (img : List Byte) (s : State), boot img = .ok s → Inv s

/-- Every step keeps the invariant: canonical memory, `pc` in 0..256 (10_state.md R14, the spec's decision D5), a
halted machine just behind an HLT, a fault record that tells the truth, down to the operand byte of the instruction at
`pc` that it blames (60_exceptions.md R91 to R98; the decisions D7, D8, D9, D14, D15, D24). -/
def Obligations.StepKeepsTheInvariant : Prop :=
  ∀ s t : State, Inv s → step s = .next t → Inv t

/-- So it holds of every state of every run from every image. -/
def Obligations.EveryRunFromAnImageKeepsTheInvariant : Prop :=
  ∀ (img : List Byte) (s t : State) (k : Nat),
    boot img = .ok s → Host.Core.run Sys2Proof.core k s = .next t → Inv t

/-! ## Encoding -/

/-- Decoding and encoding agree in both directions, for every instruction at every value of its operand bytes: a byte
list decodes to `i` with `rest` left exactly when it is the encoding of `i` followed by `rest`
(30_encoding.md R38, R41, R42). -/
def Obligations.DecodeAndEncodeAgree : Prop :=
  ∀ (bs rest : List Byte) (i : Instr), decode bs = .ok (i, rest) ↔ bs = encode i ++ rest

/-- When the decoder refuses, and by what name (30_encoding.md R48, R50). -/
def Obligations.DecoderRefusesByName : Prop :=
  (∀ bs, decode bs = .error .noOpcode ↔ bs = []) ∧
    (∀ op c bs, decode (op :: bs) = .error (.unassigned c) ↔ (∀ m, opc m ≠ op) ∧ c = op) ∧
    (∀ op bs, decode (op :: bs) = .error .missingOperand ↔ (∃ m, opc m = op) ∧ bs.length < operandCount op)

/-- The constraints (a) to (c) that any opcode map meets (30_encoding.md R46; (d) constrains nothing). -/
def Obligations.OpcodeMapMeetsItsConstraints : Prop :=
  (∀ m n, opc m = opc n → m = n) ∧
    (∀ m, operandCount (opc m) =
      if m ∈ [Mnemonic.hlt, .ret] then 0 else if m ∈ [Mnemonic.ldi, .mul, .add, .cmp] then 2 else 1) ∧
    (∀ m, (decodeFields (opc m)).setsPcDirectly = true ↔ m ∈ [Mnemonic.call, .ret, .jmp, .jeq, .jne])

/-- The decoder's fields as arithmetic on the byte; a count of 3 is never assigned (30_encoding.md R40). -/
def Obligations.DecoderFieldsAreTheBitMasks : Prop :=
  ∀ op : Byte,
    operandCount op = (op.toNat / 64) ∧ instrLength op = op.toNat / 64 + 1 ∧
      ((decodeFields op).isAlu = true ↔ op.toNat / 32 % 2 = 1) ∧
      ((decodeFields op).setsPcDirectly = true ↔ op.toNat / 16 % 2 = 1) ∧
      (decodeFields op).instructionId.toNat = op.toNat % 16 ∧ (operandCount op = 3 → lookup op = none)

/-- Words written out from the opcode map (30_encoding.md R45; the byte values are the spec's decision D1, log entry 1)
decode to the instructions they stand for. -/
def Obligations.WordsDecodeAsTabled : Prop :=
  decode [0b00000001] = .ok (.hlt, []) ∧ decode [0b10000010, 3, 8] = .ok (.ldi 3 8, []) ∧
    decode [0b01000111, 3] = .ok (.prn 3, []) ∧ decode [0b10100010, 0, 1] = .ok (.mul 0 1, []) ∧
    decode [0b10100000, 0, 1] = .ok (.add 0 1, []) ∧ decode [0b01000101, 7] = .ok (.push 7, []) ∧
    decode [0b01010000, 1] = .ok (.call 1, []) ∧ decode [0b00010001] = .ok (.ret, []) ∧
    decode [0b10100111, 5, 6] = .ok (.cmp 5 6, []) ∧ decode [0b01010101, 2] = .ok (.jeq 2, []) ∧
    decode [0b00000000] = .error (.unassigned 0)

/-! ## The cycle -/

/-- A running machine at whose `pc` an instruction lies executes it: nothing stands around `exec`
(40_cycle_and_system.md R54, R58). -/
def Obligations.StepRunsTheDecodedInstruction : Prop :=
  ∀ (s : State) (i : Instr), s.run = .running → BytesAtPc s (encode i) → step s = exec i s

/-- A table word placed by `withFetchWord` is the instruction the very next step runs (the model's own operation, log
entry 6). -/
def Obligations.PlacedWordIsRunNext : Prop :=
  ∀ (s : State) (nbits w : Nat) (i : Instr), decodeTableWord nbits w = some i →
    step (s.withFetchWord nbits w) = exec i (s.withFetchWord nbits w)

/-- "For all opcodes with operand_count = n, the Dispatch Engine reads exactly n operand bytes from Memory[PC+1..PC+n]
and advances PC by n+1 when sets_pc_directly is false" (30_encoding.md R47). -/
def Obligations.StepReadsItsOperandsAndAdvances : Prop :=
  ∀ (s t : State) (i : Instr), fetchInstr s = .ok i →
    fetchBytes s = .ok (opcodeOf i :: i.operands) ∧ i.operands.length = operandCount (byteAtPc s) ∧
      (∀ k, (h : k < i.operands.length) → i.operands[k] = Memory.read s.mem (s.pc.toNat + 1 + k)) ∧
      (step s = .next t → (∀ record, t.run ≠ .faulted record) → (decodeFields (byteAtPc s)).setsPcDirectly = false →
        t.pc.toNat = s.pc.toNat + operandCount (byteAtPc s) + 1)

/-- A fetch at `pc` = 256 faults and changes nothing but `run` (40_cycle_and_system.md R55, 60_exceptions.md R98; the
spec's decisions D5, D9). -/
def Obligations.FetchPastMemoryFaults : Prop :=
  ∀ s : State, s.run = .running → s.pc.toNat = 256 →
    step s = .next { s with run := .faulted { pc := some s.pc, info := .addressOutOfRange 256 .fetch } }

/-- An unassigned byte at `pc` faults before any operand byte is read, reports `pc` and the byte, and moves neither `pc`
nor anything else (60_exceptions.md R91). -/
def Obligations.UnassignedOpcodeFaults : Prop :=
  ∀ s : State, s.run = .running → s.pc.toNat ≤ 255 → (∀ m, opc m ≠ byteAtPc s) →
    step s = .next { s with run := .faulted { pc := some s.pc, info := .unimplementedOpcode (byteAtPc s) } }

/-- An assigned opcode with an operand byte past the end of memory faults, always at address 256, and changes nothing
but `run` (40_cycle_and_system.md R57; the spec's decisions D5, D9). -/
def Obligations.OperandPastMemoryFaults : Prop :=
  ∀ s : State, s.run = .running → s.pc.toNat ≤ 255 → (∃ m, opc m = byteAtPc s) →
    255 < s.pc.toNat + operandCount (byteAtPc s) →
    step s = .next { s with run := .faulted { pc := some s.pc, info := .addressOutOfRange 256 .operand } }

/-- Exactly the running machines have a step (40_cycle_and_system.md R60, 70_reset_and_hazards.md R118). That a missing
step is a host fault is log entry 4. -/
def Obligations.ExactlyRunningMachinesStep : Prop :=
  ∀ s : State, ((∃ t, step s = .next t) ↔ s.run = .running) ∧
    (s.run = .halted → step s = .fault .haltedHasNoStep) ∧
    (∀ record, s.run = .faulted record → step s = .fault (.faultedHasNoStep record))

/-- Faults are precise: a step that faults leaves everything but `run` as it was and records the `pc` of the faulting
instruction (60_exceptions.md R96, R98; the spec's decision D9, log entry 15). -/
def Obligations.FaultsArePrecise : Prop :=
  ∀ (s t : State) (record : FaultRecord), step s = .next t → t.run = .faulted record →
    t = { s with run := .faulted record } ∧ record.pc = some s.pc

/-- Halted is reached only through HLT (10_state.md R18, 40_cycle_and_system.md R60); that `pc` advances is the spec's
decision D11 (log entry 17). -/
def Obligations.HaltedOnlyThroughHlt : Prop :=
  ∀ s t : State, step s = .next t → t.run = .halted →
    fetchInstr s = .ok .hlt ∧ t = { s with pc := t.pc, run := .halted } ∧ t.pc.toNat = s.pc.toNat + 1

/-- A run ends in exactly one of two ways, or not at all (70_reset_and_hazards.md R114): `k` steps either all exist, or
some earlier state is halted or faulted and it is there that the run stopped. -/
def Obligations.RunsEndOnlyHaltedOrFaulted : Prop :=
  ∀ (s : State) (k : Nat), s.run = .running →
    (∃ t, Host.Core.run Sys2Proof.core k s = .next t) ∨
      ∃ j t, j < k ∧ Host.Core.run Sys2Proof.core j s = .next t ∧
        ((t.run = .halted ∧ Host.Core.run Sys2Proof.core k s = .fault .haltedHasNoStep) ∨
          ∃ record, t.run = .faulted record ∧
            Host.Core.run Sys2Proof.core k s = .fault (.faultedHasNoStep record))

/-! ## Faults of the execute part -/

/-- A register operand byte above 7 faults before anything else of the instruction, operand 1 before operand 2
(30_encoding.md R43, 60_exceptions.md R94, R97; the spec's decisions D8, D9, D15). -/
def Obligations.InvalidRegisterOperandFaults : Prop :=
  ∀ (i : Instr) (s : State),
    (∀ b, i.registerOperands.head? = some b → 7 < b.toNat →
      exec i s = .next { s with run := .faulted { pc := some s.pc, info := .invalidRegisterIndex b .first } }) ∧
    (∀ a b, i.registerOperands = [a, b] → a.toNat ≤ 7 → 7 < b.toNat →
      exec i s = .next { s with run := .faulted { pc := some s.pc, info := .invalidRegisterIndex b .second } })

/-- PUSH and CALL with SP = 0 fault and write nothing (43_stack.md R75, 44_control_transfer.md R80; the spec's decisions
D7, D9). CALL does so where its return address fits. -/
def Obligations.PushAndCallFaultAtSpZero : Prop :=
  ∀ (s : State) (b : Byte) (r : Fin 8), b.toNat = r.val → s.reg 7 = 0 →
    exec (.push b) s =
        .next { s with run := .faulted { pc := some s.pc, info := .addressOutOfRange (-1) .stackWrite } } ∧
      (s.pc.toNat + 2 ≤ 255 → exec (.call b) s =
        .next { s with run := .faulted { pc := some s.pc, info := .addressOutOfRange (-1) .stackWrite } })

/-- POP and RET fault when the value to be incremented into register 7 is 255: the old SP, or for POP R7 the popped byte
(43_stack.md R76, 44_control_transfer.md R81; the spec's decisions D7, D9, D12). -/
def Obligations.PopAndRetFaultPastTheTop : Prop :=
  ∀ (s : State) (b : Byte) (r : Fin 8), b.toNat = r.val →
    ((if r = 7 then Memory.read s.mem (s.reg 7).toNat else s.reg 7) = 255 → exec (.pop b) s =
        .next { s with run := .faulted { pc := some s.pc, info := .addressOutOfRange 256 .spUpdate } }) ∧
      (s.reg 7 = 255 → exec .ret s =
        .next { s with run := .faulted { pc := some s.pc, info := .addressOutOfRange 256 .spUpdate } })

/-- A CALL whose return address would not fit a byte faults, whatever SP is (44_control_transfer.md R80; the spec's
decisions D14, D15). -/
def Obligations.CallAtTheEndFaults : Prop :=
  ∀ (s : State) (b : Byte) (r : Fin 8), b.toNat = r.val → s.pc.toNat = 254 →
    exec (.call b) s =
      .next { s with run := .faulted { pc := some s.pc, info := .addressOutOfRange 256 .returnAddress } }

/-- The per-instruction fault table: the execute part of an instruction raises only what its row allows
(60_exceptions.md R95, which the spec derives). -/
def Obligations.OnlyTabledFaultsAreRaised : Prop :=
  ∀ (i : Instr) (s t : State) (record : FaultRecord), (∀ earlier, s.run ≠ .faulted earlier) →
    exec i s = .next t → t.run = .faulted record → mayRaise i record.info = true

/-- `UnsupportedALUOperation` is raised by no step of any state (60_exceptions.md R92). -/
def Obligations.AluFaultIsUnreachable : Prop :=
  ∀ (s t : State) (p : Option Pc), step s = .next t → t.run ≠ .faulted { pc := p, info := .unsupportedALUOperation }

/-! ## Results and frames of the instructions: each says where the instruction completes -/

/-- HLT (40_cycle_and_system.md R61; the advance of `pc` is the spec's decision D11). -/
def Obligations.HltHaltsAndChangesNothingElse : Prop :=
  ∀ s : State, s.pc.toNat + 1 ≤ 256 → ∃ t, exec .hlt s = .next t ∧ t.run = .halted ∧
    t.pc.toNat = s.pc.toNat + 1 ∧ (∀ j, t.reg j = s.reg j) ∧ (∀ a, Memory.read t.mem a = Memory.read s.mem a) ∧
    t.flags = s.flags ∧ t.out = s.out

/-- LDI (41_load_immediate.md R64): every immediate, every register. -/
def Obligations.LdiLoadsItsImmediate : Prop :=
  ∀ (s : State) (b imm : Byte) (r : Fin 8), b.toNat = r.val → s.pc.toNat + 3 ≤ 256 →
    ∃ t, exec (.ldi b imm) s = .next t ∧ t.reg r = imm ∧ (∀ j, j ≠ r → t.reg j = s.reg j) ∧
      t.pc.toNat = s.pc.toNat + 3 ∧ (∀ a, Memory.read t.mem a = Memory.read s.mem a) ∧ t.flags = s.flags ∧
      t.run = s.run ∧ t.out = s.out

/-- PRN (40_cycle_and_system.md R62): exactly one emission, and nothing else but `pc`. -/
def Obligations.PrnEmitsItsRegister : Prop :=
  ∀ (s : State) (b : Byte) (r : Fin 8), b.toNat = r.val → s.pc.toNat + 2 ≤ 256 →
    ∃ t, exec (.prn b) s = .next t ∧ t.out = s.out ++ [s.reg r] ∧ (∀ j, t.reg j = s.reg j) ∧
      t.pc.toNat = s.pc.toNat + 2 ∧ (∀ a, Memory.read t.mem a = Memory.read s.mem a) ∧ t.flags = s.flags ∧
      t.run = s.run

/-- ADD (42_alu.md R67; the wrap at 8 bits is the spec's decision D3): modulo 256, no flag. -/
def Obligations.AddWrapsAndWritesNoFlag : Prop :=
  ∀ (s : State) (a b : Byte) (ra rb : Fin 8), a.toNat = ra.val → b.toNat = rb.val → s.pc.toNat + 3 ≤ 256 →
    ∃ t, exec (.add a b) s = .next t ∧ (t.reg ra).toNat = ((s.reg ra).toNat + (s.reg rb).toNat) % 256 ∧
      (∀ j, j ≠ ra → t.reg j = s.reg j) ∧ t.pc.toNat = s.pc.toNat + 3 ∧
      (∀ c, Memory.read t.mem c = Memory.read s.mem c) ∧ t.flags = s.flags ∧ t.run = s.run ∧ t.out = s.out

/-- MUL (42_alu.md R68; the wrap at 8 bits is the spec's decision D3): modulo 256, no flag. -/
def Obligations.MulWrapsAndWritesNoFlag : Prop :=
  ∀ (s : State) (a b : Byte) (ra rb : Fin 8), a.toNat = ra.val → b.toNat = rb.val → s.pc.toNat + 3 ≤ 256 →
    ∃ t, exec (.mul a b) s = .next t ∧ (t.reg ra).toNat = ((s.reg ra).toNat * (s.reg rb).toNat) % 256 ∧
      (∀ j, j ≠ ra → t.reg j = s.reg j) ∧ t.pc.toNat = s.pc.toNat + 3 ∧
      (∀ c, Memory.read t.mem c = Memory.read s.mem c) ∧ t.flags = s.flags ∧ t.run = s.run ∧ t.out = s.out

/-- CMP (42_alu.md R69): the unsigned comparison decides all three flags, exactly one of which is set. The meaning of L
and G and the clearing of flags are the spec's decision D10 (log entry 16). -/
def Obligations.CmpWritesAllThreeFlags : Prop :=
  ∀ (s : State) (a b : Byte) (ra rb : Fin 8), a.toNat = ra.val → b.toNat = rb.val → s.pc.toNat + 3 ≤ 256 →
    ∃ t, exec (.cmp a b) s = .next t ∧ (t.flags.e = true ↔ (s.reg ra).toNat = (s.reg rb).toNat) ∧
      (t.flags.l = true ↔ (s.reg ra).toNat < (s.reg rb).toNat) ∧
      (t.flags.g = true ↔ (s.reg rb).toNat < (s.reg ra).toNat) ∧
      [t.flags.e, t.flags.l, t.flags.g].count true = 1 ∧ (∀ j, t.reg j = s.reg j) ∧
      t.pc.toNat = s.pc.toNat + 3 ∧ (∀ c, Memory.read t.mem c = Memory.read s.mem c) ∧ t.run = s.run ∧ t.out = s.out

/-- PUSH (43_stack.md R75), for SP not 0: SP - 1, and the byte stored there is the register's, which for PUSH R7 is the
decremented SP (the spec's decision D12, log entry 18). -/
def Obligations.PushStoresBelowTheStack : Prop :=
  ∀ (s : State) (b : Byte) (r : Fin 8), b.toNat = r.val → s.reg 7 ≠ 0 → s.pc.toNat + 2 ≤ 256 →
    ∃ t, exec (.push b) s = .next t ∧ (t.reg 7).toNat = (s.reg 7).toNat - 1 ∧ (∀ j, j ≠ 7 → t.reg j = s.reg j) ∧
      Memory.read t.mem ((s.reg 7).toNat - 1) = (if r = 7 then s.reg 7 - 1 else s.reg r) ∧
      (∀ a, a ≠ (s.reg 7).toNat - 1 → Memory.read t.mem a = Memory.read s.mem a) ∧
      t.pc.toNat = s.pc.toNat + 2 ∧ t.flags = s.flags ∧ t.run = s.run ∧ t.out = s.out

/-- POP (43_stack.md R76): for `r` other than 7 and SP below 255, the byte at SP goes to the register and SP steps up;
for POP R7 and a popped byte below 255, register 7 becomes that byte plus one (the spec's decision D12, log entry 18).
Memory stays as it is. -/
def Obligations.PopLoadsFromTheStack : Prop :=
  ∀ (s : State) (b : Byte) (r : Fin 8), b.toNat = r.val → s.pc.toNat + 2 ≤ 256 →
    (if r = 7 then Memory.read s.mem (s.reg 7).toNat else s.reg 7) ≠ 255 →
    ∃ t, exec (.pop b) s = .next t ∧ (r ≠ 7 → t.reg r = Memory.read s.mem (s.reg 7).toNat) ∧
      (t.reg 7).toNat = (if r = 7 then Memory.read s.mem (s.reg 7).toNat else s.reg 7).toNat + 1 ∧
      (∀ j, j ≠ r → j ≠ 7 → t.reg j = s.reg j) ∧ (∀ a, Memory.read t.mem a = Memory.read s.mem a) ∧
      t.pc.toNat = s.pc.toNat + 2 ∧ t.flags = s.flags ∧ t.run = s.run ∧ t.out = s.out

/-- CALL (44_control_transfer.md R80), where the return address fits a byte (D14) and SP is not 0 (D7): `pc + 2` is
pushed and `pc` takes the register, which for CALL R7 is the decremented SP (the spec's decision D12, log entry 18). -/
def Obligations.CallPushesTheReturnAddress : Prop :=
  ∀ (s : State) (b : Byte) (r : Fin 8), b.toNat = r.val → s.reg 7 ≠ 0 → s.pc.toNat + 2 ≤ 255 →
    ∃ t, exec (.call b) s = .next t ∧ (t.reg 7).toNat = (s.reg 7).toNat - 1 ∧ (∀ j, j ≠ 7 → t.reg j = s.reg j) ∧
      (Memory.read t.mem ((s.reg 7).toNat - 1)).toNat = s.pc.toNat + 2 ∧
      (∀ a, a ≠ (s.reg 7).toNat - 1 → Memory.read t.mem a = Memory.read s.mem a) ∧
      t.pc.toNat = (if r = 7 then s.reg 7 - 1 else s.reg r).toNat ∧ t.flags = s.flags ∧ t.run = s.run ∧
      t.out = s.out

/-- RET (44_control_transfer.md R81), for SP below 255 (D7): `pc` takes the byte at SP and SP steps up. -/
def Obligations.RetPopsTheProgramCounter : Prop :=
  ∀ s : State, s.reg 7 ≠ 255 →
    ∃ t, exec .ret s = .next t ∧ t.pc.toNat = (Memory.read s.mem (s.reg 7).toNat).toNat ∧
      (t.reg 7).toNat = (s.reg 7).toNat + 1 ∧ (∀ j, j ≠ 7 → t.reg j = s.reg j) ∧
      (∀ a, Memory.read t.mem a = Memory.read s.mem a) ∧ t.flags = s.flags ∧ t.run = s.run ∧ t.out = s.out

/-- JMP (44_control_transfer.md R82): `pc` takes the register, nothing else changes. -/
def Obligations.JmpTakesItsTargetFromTheRegister : Prop :=
  ∀ (s : State) (b : Byte) (r : Fin 8), b.toNat = r.val →
    ∃ t, exec (.jmp b) s = .next t ∧ t.pc.toNat = (s.reg r).toNat ∧ (∀ j, t.reg j = s.reg j) ∧
      (∀ a, Memory.read t.mem a = Memory.read s.mem a) ∧ t.flags = s.flags ∧ t.run = s.run ∧ t.out = s.out

/-- JEQ (44_control_transfer.md R83): on E = 1 to the register's address, on E = 0 to the next instruction (the spec's
decision D13, log entry 19). -/
def Obligations.JeqBranchesOnEqual : Prop :=
  ∀ (s : State) (b : Byte) (r : Fin 8), b.toNat = r.val → s.pc.toNat + 2 ≤ 256 →
    ∃ t, exec (.jeq b) s = .next t ∧ (s.flags.e = true → t.pc.toNat = (s.reg r).toNat) ∧
      (s.flags.e = false → t.pc.toNat = s.pc.toNat + 2) ∧ (∀ j, t.reg j = s.reg j) ∧
      (∀ a, Memory.read t.mem a = Memory.read s.mem a) ∧ t.flags = s.flags ∧ t.run = s.run ∧ t.out = s.out

/-- JNE (44_control_transfer.md R84): on E = 0 to the register's address, on E = 1 to the next instruction (the spec's
decision D13, log entry 19). -/
def Obligations.JneBranchesOnNotEqual : Prop :=
  ∀ (s : State) (b : Byte) (r : Fin 8), b.toNat = r.val → s.pc.toNat + 2 ≤ 256 →
    ∃ t, exec (.jne b) s = .next t ∧ (s.flags.e = false → t.pc.toNat = (s.reg r).toNat) ∧
      (s.flags.e = true → t.pc.toNat = s.pc.toNat + 2) ∧ (∀ j, t.reg j = s.reg j) ∧
      (∀ a, Memory.read t.mem a = Memory.read s.mem a) ∧ t.flags = s.flags ∧ t.run = s.run ∧ t.out = s.out

/-! ## Memory accesses -/

/-- `MemRead` answers the cell's byte for exactly the addresses 0..255 and reduces no address (20_memory.md R24; the
spec's decision D4). -/
def Obligations.MemReadNeverWraps : Prop :=
  ∀ (s : State) (addr : Int) (access : Access),
    (∀ n : Nat, addr = n → n ≤ 255 → memRead s addr access = .ok (Memory.read s.mem n)) ∧
      (addr < 0 ∨ 255 < addr → memRead s addr access = .error (.addressOutOfRange addr access))

/-- `MemWrite` changes the one cell of an address in 0..255 to any byte (20_memory.md R25). For every other address it
raises `AddressOutOfRange` and reduces none modulo 256: the spec's decision D4 (log entry 11). -/
def Obligations.MemWriteChangesOneCell : Prop :=
  ∀ (s : State) (addr : Int) (v : Byte) (access : Access),
    (∀ n : Nat, addr = n → n ≤ 255 → ∃ t, memWrite s addr v access = .ok t ∧ Memory.read t.mem n = v ∧
      (∀ a, a ≠ n → Memory.read t.mem a = Memory.read s.mem a) ∧ t = { s with mem := t.mem }) ∧
      (addr < 0 ∨ 255 < addr → memWrite s addr v access = .error (.addressOutOfRange addr access))

/-! ## Rules about the whole machine -/

/-- Flags are written by CMP alone (10_state.md R16). -/
def Obligations.OnlyCmpWritesFlags : Prop :=
  ∀ s t : State, step s = .next t → t.flags = s.flags ∨ ∃ a b, fetchInstr s = .ok (.cmp a b)

/-- A PRN with a legal register appends that register's byte to the output sequence, every other step leaves it as it
is, and nothing reads it: with any other output sequence the step is the same but for what stood there before
(10_state.md R20). That a PRN with an operand byte above 7 appends nothing is the spec's decisions D8 and D9. -/
def Obligations.OutIsAppendedByPrnAndReadByNothing : Prop :=
  ∀ s t : State, step s = .next t →
    (∀ (b : Byte) (r : Fin 8), fetchInstr s = .ok (.prn b) → b.toNat = r.val → t.out = s.out ++ [s.reg r]) ∧
    ((∀ (b : Byte) (r : Fin 8), fetchInstr s = .ok (.prn b) → b.toNat ≠ r.val) → t.out = s.out) ∧
    ∀ earlier : List Byte, ∃ new, t.out = s.out ++ new ∧
      step { s with out := earlier } = .next { t with out := earlier ++ new }

/-- Memory is written by PUSH and CALL alone, and only the cell below the stack (10_state.md R21, 20_memory.md R29). -/
def Obligations.OnlyPushAndCallWriteMemory : Prop :=
  ∀ s t : State, step s = .next t → t.mem = s.mem ∨
    ((∃ b, fetchInstr s = .ok (.push b) ∨ fetchInstr s = .ok (.call b)) ∧ s.reg 7 ≠ 0 ∧
      ∀ a, a ≠ (s.reg 7).toNat - 1 → Memory.read t.mem a = Memory.read s.mem a)

/-- A register changes only if it is register 7 and the instruction is PUSH, POP, CALL or RET, or if it is the first
operand of LDI, ADD, MUL or POP (10_state.md R11, which the spec derives). -/
def Obligations.OnlyTabledRegistersAreWritten : Prop :=
  ∀ (s t : State) (j : Fin 8), step s = .next t → t.reg j ≠ s.reg j →
    ∃ i, fetchInstr s = .ok i ∧
      ((j = 7 ∧ i.mnemonic ∈ [Mnemonic.push, .pop, .call, .ret]) ∨
        (i.mnemonic ∈ [Mnemonic.ldi, .add, .mul, .pop] ∧ ∃ b, i.operands.head? = some b ∧ b.toNat = j.val))

/-- L and G are read by no instruction: with any other L and G before it the step is the same, and after it either
both stand as they did before (a step that leaves all flags alone) or both are what they are without the change (a CMP)
(10_state.md R16, 44_control_transfer.md R88). -/
def Obligations.LessAndGreaterAreNeverRead : Prop :=
  ∀ (s t : State) (l g : Bool), step s = .next t →
    ∃ l' g', step { s with flags := { s.flags with l := l, g := g } } =
      .next { t with flags := { t.flags with l := l', g := g' } } ∧
      ((l' = l ∧ g' = g ∧ t.flags = s.flags) ∨
        (l' = t.flags.l ∧ g' = t.flags.g ∧ ∃ a b, fetchInstr s = .ok (.cmp a b)))

/-- Memory is read as data by POP and RET alone, at SP, and otherwise only where the instruction lies: any other cell
can hold any other byte, and the step is the same but for that cell, which keeps that byte unless a PUSH or CALL stores
over it (20_memory.md R29, R31). -/
def Obligations.UnreadCellsDoNotMatter : Prop :=
  ∀ (s t : State) (i : Instr) (a : Nat) (v : Byte), step s = .next t → fetchInstr s = .ok i → ¬ OwnByte s i a →
    (i.mnemonic = .pop ∨ i.mnemonic = .ret → a ≠ (s.reg 7).toNat) →
    ∃ u, step { s with mem := Memory.write s.mem a v } = .next u ∧ u = { t with mem := u.mem } ∧
      (∀ c, c ≠ a → Memory.read u.mem c = Memory.read t.mem c) ∧
      (Memory.read u.mem a = v ∨ (i.mnemonic ∈ [Mnemonic.push, .call] ∧ a + 1 = (s.reg 7).toNat ∧
        Memory.read u.mem a = Memory.read t.mem a))

/-! ## Laws of the source -/

/-- ADD and MUL commute: from one start, the swapped operands leave the same value in the other register
(42_alu.md R71, which the spec derives). -/
def Obligations.AddAndMulCommute : Prop :=
  ∀ (s : State) (a b : Byte) (ra rb : Fin 8), a.toNat = ra.val → b.toNat = rb.val →
    (∃ t u, exec (.add a b) s = .next t ∧ exec (.add b a) s = .next u ∧ t.reg ra = u.reg rb) ∧
      (∃ t u, exec (.mul a b) s = .next t ∧ exec (.mul b a) s = .next u ∧ t.reg ra = u.reg rb)

/-- PUSH then POP of one register restores SP and the register, register 7 included; only the cell below the old SP and
`pc` keep a trace (43_stack.md R77, which the spec derives; D12). -/
def Obligations.PushThenPopRestores : Prop :=
  ∀ (s : State) (b : Byte) (r : Fin 8), b.toNat = r.val → s.reg 7 ≠ 0 → s.pc.toNat + 4 ≤ 256 →
    ∃ t u, exec (.push b) s = .next t ∧ exec (.pop b) t = .next u ∧ (∀ j, u.reg j = s.reg j) ∧
      u.pc.toNat = s.pc.toNat + 4 ∧ (∀ a, a ≠ (s.reg 7).toNat - 1 → Memory.read u.mem a = Memory.read s.mem a) ∧
      u.flags = s.flags ∧ u.run = s.run ∧ u.out = s.out

/-- CALL then, whenever SP and the cell it points to are again what the CALL left, RET: control comes back to the
CALL's address plus 2, with SP as before the CALL (44_control_transfer.md R85, which the spec derives; D7, D14). -/
def Obligations.CallThenReturnComesBack : Prop :=
  ∀ (s v : State) (b : Byte) (r : Fin 8), b.toNat = r.val → s.reg 7 ≠ 0 → s.pc.toNat + 2 ≤ 255 →
    ∃ t, exec (.call b) s = .next t ∧
      (v.reg 7 = t.reg 7 → Memory.read v.mem (v.reg 7).toNat = Memory.read t.mem (t.reg 7).toNat →
        ∃ u, exec .ret v = .next u ∧ u.pc.toNat = s.pc.toNat + 2 ∧ u.reg 7 = s.reg 7)

/-- After `LDI R7, v` the next PUSH stores at `v - 1` and the next POP reads cell `v` (41_load_immediate.md R65, which
the spec derives), for a register `r` other than 7. -/
def Obligations.LdiIntoSevenMovesTheStack : Prop :=
  ∀ (s : State) (v b : Byte) (r : Fin 8), b.toNat = r.val → r ≠ 7 →
    ∃ t, exec (.ldi 7 v) s = .next t ∧ t.reg 7 = v ∧
      (v ≠ 0 → ∃ u, exec (.push b) t = .next u ∧ Memory.read u.mem (v.toNat - 1) = s.reg r) ∧
      (v ≠ 255 → ∃ u, exec (.pop b) t = .next u ∧ u.reg r = Memory.read s.mem v.toNat)

/-- The text of an emission is the shortest decimal numeral of the byte and one newline (40_cycle_and_system.md R63; the
spec's decision D17, log entry 23). -/
def Obligations.EmissionIsTheShortestNumeral : Prop :=
  ∀ v : Byte, emissionText v = (decimalDigits v).map (48 + ·) ++ [10] ∧
    (decimalDigits v).foldl (fun n d => 10 * n + d) 0 = v.toNat ∧ (∀ d ∈ decimalDigits v, d ≤ 9) ∧
    ((decimalDigits v).head? = some 0 → decimalDigits v = [0]) ∧ (decimalDigits v).length ≤ 3
end

