-- ==== Sys2Proof/Laws/Decode.lean ====
section
/-! SUPPORT. The opcode map and its inverse, and how an operand format takes its bytes. -/

namespace Sys2Proof

@[simp] theorem lookup_opc (m : Mnemonic) : lookup (opc m) = some m := by cases m <;> rfl

/-- A byte is looked up as an instruction only if it is that instruction's opcode byte. -/
theorem opc_of_lookup {op : Byte} {m : Mnemonic} (h : lookup op = some m) : opc m = op := by
  simpa using List.find?_some h

theorem lookup_eq_some {op : Byte} {m : Mnemonic} : lookup op = some m ↔ op = opc m :=
  ⟨fun h => (opc_of_lookup h).symm, fun h => h ▸ lookup_opc m⟩

theorem lookup_eq_none {op : Byte} : lookup op = none ↔ ∀ m, opc m ≠ op := by
  constructor
  · rintro h m rfl; simp at h
  · intro h
    cases hl : lookup op with
    | none => rfl
    | some m => exact absurd (opc_of_lookup hl) (h m)

/-- The operand count in the opcode byte is the number of operand bytes of the instruction. -/
theorem operandCount_opc (i : Instr) : operandCount (opc i.mnemonic) = i.operands.length := by
  cases i <;> simp only [Instr.mnemonic, Instr.operands, List.length_cons, List.length_nil] <;> decide

theorem encode_length (i : Instr) : (encode i).length = i.operands.length + 1 := rfl

/-- The format takes exactly the operand bytes the instruction has, and leaves the rest. -/
theorem takeOperands_operands (i : Instr) (bs : List Byte) : takeOperands i.mnemonic (i.operands ++ bs) = .ok (i, bs) := by
  cases i <;> rfl

/-- What a format takes is what stands at the front of the list. -/
theorem takeOperands_ok {m : Mnemonic} {bs rest : List Byte} {i : Instr} (h : takeOperands m bs = .ok (i, rest)) :
    i.mnemonic = m ∧ bs = i.operands ++ rest := by
  have zero : ∀ j, takeZero j bs = .ok (i, rest) → j = i ∧ bs = rest := by
    intro j h; simpa [takeZero] using h
  have one : ∀ f, takeOne f bs = .ok (i, rest) → ∃ b, f b = i ∧ bs = b :: rest := by
    intro f h
    match bs, h with
    | b :: bs, h => simp only [takeOne, Except.ok.injEq, Prod.mk.injEq] at h; exact ⟨b, h.1, by rw [h.2]⟩
  have two : ∀ f, takeTwo f bs = .ok (i, rest) → ∃ b c, f b c = i ∧ bs = b :: c :: rest := by
    intro f h
    match bs, h with
    | b :: c :: bs, h => simp only [takeTwo, Except.ok.injEq, Prod.mk.injEq] at h; exact ⟨b, c, h.1, by rw [h.2]⟩
  cases m
  case hlt | ret => obtain ⟨rfl, rfl⟩ := zero _ h; exact ⟨rfl, rfl⟩
  case ldi | mul | add | cmp => obtain ⟨b, c, rfl, rfl⟩ := two _ h; exact ⟨rfl, rfl⟩
  all_goals obtain ⟨b, rfl, rfl⟩ := one _ h; exact ⟨rfl, rfl⟩

/-- With as many bytes as the opcode byte asks for, a format takes them all. -/
theorem takeOperands_exact {m : Mnemonic} {bs : List Byte} (h : bs.length = operandCount (opc m)) :
    ∃ i, takeOperands m bs = .ok (i, []) ∧ i.mnemonic = m ∧ i.operands = bs := by
  cases m
  case hlt | ret =>
    obtain rfl : bs = [] := List.length_eq_zero_iff.1 (h.trans (by decide))
    exact ⟨_, rfl, rfl, rfl⟩
  case ldi | mul | add | cmp =>
    obtain ⟨b, c, rfl⟩ := List.length_eq_two.1 (h.trans (by decide))
    exact ⟨_, rfl, rfl, rfl⟩
  all_goals
    obtain ⟨b, rfl⟩ := List.length_eq_one_iff.1 (h.trans (by decide))
    exact ⟨_, rfl, rfl, rfl⟩

end Sys2Proof
end

