-- ==== Sys2Proof/Laws/Memory.lean ====
section
/-! SUPPORT. Memory: what a cell reads as after a write, and the canonical form. -/

namespace Sys2Proof.Machine

@[simp] theorem Memory.read_nil (a : Nat) : Memory.read [] a = 0 := rfl

theorem Memory.read_erase (m : Memory) (a b : Nat) :
    Memory.read (Memory.erase m a) b = if a = b then 0 else Memory.read m b := by
  induction m with
  | nil => simp [Memory.erase]
  | cons c m ih =>
    obtain ⟨k, w⟩ := c
    by_cases hk : k = a
    · subst hk
      simp only [Memory.erase, Memory.read, if_true, ih]
      split <;> rfl
    · simp only [Memory.erase, Memory.read, hk, if_false, ih]
      by_cases hb : k = b
      · subst hb; simp [Ne.symm hk]
      · simp [hb]

/-- No entry of the memory is for this address. -/
theorem Memory.erase_no_entry (m : Memory) (a : Nat) : ∀ c ∈ Memory.erase m a, c.1 ≠ a := by
  induction m with
  | nil => simp [Memory.erase]
  | cons c m ih =>
    obtain ⟨k, w⟩ := c
    by_cases hk : k = a
    · simpa [Memory.erase, hk] using ih
    · simp only [Memory.erase, hk, if_false, List.mem_cons]
      rintro c (rfl | hc)
      · exact hk
      · exact ih c hc

theorem Memory.read_insert (m : Memory) (a : Nat) (v : Byte) (h : ∀ c ∈ m, c.1 ≠ a) (b : Nat) :
    Memory.read (Memory.insert m a v) b = if a = b then v else Memory.read m b := by
  induction m with
  | nil => simp [Memory.insert, Memory.read]
  | cons c m ih =>
    obtain ⟨k, w⟩ := c
    have hk : k ≠ a := h (k, w) (by simp)
    have ih := ih (fun c hc => h c (List.mem_cons_of_mem _ hc))
    by_cases hlt : a < k
    · simp [Memory.insert, hlt, Memory.read]
    · simp only [Memory.insert, hlt, if_false, Memory.read, ih]
      by_cases hb : k = b
      · subst hb; simp [Ne.symm hk]
      · simp [hb]

/-- A cell after a write: the byte written, or what it held; for every memory, canonical or not (R24, R25). -/
theorem Memory.read_write (m : Memory) (a : Nat) (v : Byte) (b : Nat) :
    Memory.read (Memory.write m a v) b = if a = b then v else Memory.read m b := by
  unfold Memory.write
  split
  · next hv => rw [Memory.read_erase, hv]
  · rw [Memory.read_insert _ _ _ (Memory.erase_no_entry m a), Memory.read_erase]
    split <;> simp_all

@[simp] theorem Memory.read_write_self (m : Memory) (a : Nat) (v : Byte) :
    Memory.read (Memory.write m a v) a = v := by simp [Memory.read_write]

theorem Memory.read_write_of_ne {a b : Nat} (h : b ≠ a) (m : Memory) (v : Byte) :
    Memory.read (Memory.write m a v) b = Memory.read m b := by simp [Memory.read_write, Ne.symm h]

/-! ## The canonical form -/

theorem Memory.sortedFrom_mono {m : Memory} {lo hi : Nat} (h : lo ≤ hi) (hs : Memory.sortedFrom hi m = true) :
    Memory.sortedFrom lo m = true := by
  cases m with
  | nil => rfl
  | cons c m =>
    obtain ⟨k, w⟩ := c
    simp only [Memory.sortedFrom, Bool.and_eq_true, decide_eq_true_eq] at hs ⊢
    exact ⟨⟨⟨le_trans h hs.1.1.1, hs.1.1.2⟩, hs.1.2⟩, hs.2⟩

/-- Below its first address a sorted memory reads as unlisted. -/
theorem Memory.read_below {m : Memory} {lo a : Nat} (hs : Memory.sortedFrom lo m = true) (h : a < lo) :
    Memory.read m a = 0 := by
  induction m generalizing lo with
  | nil => rfl
  | cons c m ih =>
    obtain ⟨k, w⟩ := c
    simp only [Memory.sortedFrom, Bool.and_eq_true, decide_eq_true_eq] at hs
    have hk : k ≠ a := by omega
    simpa [Memory.read, hk] using ih hs.2 (by omega)

theorem Memory.sortedFrom_erase {m : Memory} {lo : Nat} (a : Nat) (hs : Memory.sortedFrom lo m = true) :
    Memory.sortedFrom lo (Memory.erase m a) = true := by
  induction m generalizing lo with
  | nil => rfl
  | cons c m ih =>
    obtain ⟨k, w⟩ := c
    simp only [Memory.sortedFrom, Bool.and_eq_true, decide_eq_true_eq] at hs
    by_cases hk : k = a
    · simpa [Memory.erase, hk] using Memory.sortedFrom_mono (by omega) (ih hs.2)
    · simp only [Memory.erase, hk, if_false, Memory.sortedFrom, Bool.and_eq_true, decide_eq_true_eq]
      exact ⟨hs.1, ih hs.2⟩

theorem Memory.sortedFrom_insert {m : Memory} {lo a : Nat} {v : Byte} (hv : v ≠ 0) (hlo : lo ≤ a) (ha : a < 256)
    (hne : ∀ c ∈ m, c.1 ≠ a) (hs : Memory.sortedFrom lo m = true) :
    Memory.sortedFrom lo (Memory.insert m a v) = true := by
  induction m generalizing lo with
  | nil => simpa [Memory.insert, Memory.sortedFrom, hlo, ha] using hv
  | cons c m ih =>
    obtain ⟨k, w⟩ := c
    have hk : k ≠ a := hne (k, w) (by simp)
    simp only [Memory.sortedFrom, Bool.and_eq_true, decide_eq_true_eq] at hs
    by_cases hlt : a < k
    · simp only [Memory.insert, hlt, if_true, Memory.sortedFrom, Bool.and_eq_true, decide_eq_true_eq]
      exact ⟨⟨⟨hlo, ha⟩, hv⟩, ⟨⟨by omega, hs.1.1.2⟩, hs.1.2⟩, hs.2⟩
    · simp only [Memory.insert, hlt, if_false, Memory.sortedFrom, Bool.and_eq_true, decide_eq_true_eq]
      exact ⟨hs.1, ih (by omega) (fun c hc => hne c (List.mem_cons_of_mem _ hc)) hs.2⟩

/-- Every write to a cell keeps the canonical form. -/
theorem Memory.write_wf {m : Memory} {a : Nat} (v : Byte) (ha : a < 256) (h : Memory.wf m = true) :
    Memory.wf (Memory.write m a v) = true := by
  unfold Memory.write Memory.wf at *
  split
  · exact Memory.sortedFrom_erase a h
  · next hv =>
    exact Memory.sortedFrom_insert hv (Nat.zero_le _) ha (Memory.erase_no_entry m a) (Memory.sortedFrom_erase a h)

/-- In canonical form equal memories are equal lists. -/
theorem Memory.ext_of_sortedFrom {m n : Memory} {lo : Nat} (hm : Memory.sortedFrom lo m = true)
    (hn : Memory.sortedFrom lo n = true) (h : ∀ a, Memory.read m a = Memory.read n a) : m = n := by
  induction m generalizing n lo with
  | nil =>
    cases n with
    | nil => rfl
    | cons d n =>
      obtain ⟨j, u⟩ := d
      simp only [Memory.sortedFrom, Bool.and_eq_true, decide_eq_true_eq] at hn
      have := h j
      simp only [Memory.read, if_true] at this
      exact absurd this.symm hn.1.2
  | cons c m ih =>
    obtain ⟨k, w⟩ := c
    simp only [Memory.sortedFrom, Bool.and_eq_true, decide_eq_true_eq] at hm
    cases n with
    | nil =>
      have := h k
      simp only [Memory.read, if_true] at this
      exact absurd this hm.1.2
    | cons d n =>
      obtain ⟨j, u⟩ := d
      simp only [Memory.sortedFrom, Bool.and_eq_true, decide_eq_true_eq] at hn
      have hjk : j = k := by
        rcases Nat.lt_trichotomy j k with hlt | heq | hgt
        · have := h j
          rw [Memory.read, if_neg (by omega), Memory.read_below hm.2 (by omega)] at this
          simp only [Memory.read, if_true] at this
          exact absurd this.symm hn.1.2
        · exact heq
        · have := h k
          rw [eq_comm, Memory.read, if_neg (by omega), Memory.read_below hn.2 (by omega)] at this
          simp only [Memory.read, if_true] at this
          exact absurd this.symm hm.1.2
      subst hjk
      have hwu : w = u := by simpa [Memory.read] using h j
      subst hwu
      refine congrArg _ (ih hm.2 hn.2 fun a => ?_)
      by_cases hja : j = a
      · subst hja
        rw [Memory.read_below hm.2 (Nat.lt_succ_self _), Memory.read_below hn.2 (Nat.lt_succ_self _)]
      · simpa [Memory.read, hja] using h a

theorem Memory.ext_of_wf {m n : Memory} (hm : Memory.wf m = true) (hn : Memory.wf n = true)
    (h : ∀ a, Memory.read m a = Memory.read n a) : m = n :=
  Memory.ext_of_sortedFrom hm hn h

theorem reset_memory_wf : Memory.wf State.reset.mem = true := rfl

end Sys2Proof.Machine
end

