-- ==== Sys2Proof/Laws/State.lean ====
section
/-! SUPPORT. One lemma per field per update of the state, so that no later proof unfolds a record update. -/

namespace Sys2Proof.Machine

/-! `State.setReg` -/

@[simp] theorem State.setReg_mem (s : State) (i : Fin 8) (v : Byte) : (s.setReg i v).mem = s.mem := rfl
@[simp] theorem State.setReg_regs (s : State) (i : Fin 8) (v : Byte) : (s.setReg i v).regs = s.regs.set i.val v i.isLt := rfl
@[simp] theorem State.setReg_pc (s : State) (i : Fin 8) (v : Byte) : (s.setReg i v).pc = s.pc := rfl
@[simp] theorem State.setReg_flags (s : State) (i : Fin 8) (v : Byte) : (s.setReg i v).flags = s.flags := rfl
@[simp] theorem State.setReg_run (s : State) (i : Fin 8) (v : Byte) : (s.setReg i v).run = s.run := rfl
@[simp] theorem State.setReg_out (s : State) (i : Fin 8) (v : Byte) : (s.setReg i v).out = s.out := rfl

/-! `State.setPc` -/

@[simp] theorem State.setPc_mem (s : State) (t : Pc) : (s.setPc t).mem = s.mem := rfl
@[simp] theorem State.setPc_regs (s : State) (t : Pc) : (s.setPc t).regs = s.regs := rfl
@[simp] theorem State.setPc_pc (s : State) (t : Pc) : (s.setPc t).pc = t := rfl
@[simp] theorem State.setPc_flags (s : State) (t : Pc) : (s.setPc t).flags = s.flags := rfl
@[simp] theorem State.setPc_run (s : State) (t : Pc) : (s.setPc t).run = s.run := rfl
@[simp] theorem State.setPc_out (s : State) (t : Pc) : (s.setPc t).out = s.out := rfl

/-! `State.advance` -/

@[simp] theorem State.advance_mem (s : State) (n : Nat) : (s.advance n).mem = s.mem := rfl
@[simp] theorem State.advance_regs (s : State) (n : Nat) : (s.advance n).regs = s.regs := rfl
@[simp] theorem State.advance_pc (s : State) (n : Nat) : (s.advance n).pc = s.pc + BitVec.ofNat 9 n := rfl
@[simp] theorem State.advance_flags (s : State) (n : Nat) : (s.advance n).flags = s.flags := rfl
@[simp] theorem State.advance_run (s : State) (n : Nat) : (s.advance n).run = s.run := rfl
@[simp] theorem State.advance_out (s : State) (n : Nat) : (s.advance n).out = s.out := rfl

/-! `State.emit` -/

@[simp] theorem State.emit_mem (s : State) (v : Byte) : (s.emit v).mem = s.mem := rfl
@[simp] theorem State.emit_regs (s : State) (v : Byte) : (s.emit v).regs = s.regs := rfl
@[simp] theorem State.emit_pc (s : State) (v : Byte) : (s.emit v).pc = s.pc := rfl
@[simp] theorem State.emit_flags (s : State) (v : Byte) : (s.emit v).flags = s.flags := rfl
@[simp] theorem State.emit_run (s : State) (v : Byte) : (s.emit v).run = s.run := rfl
@[simp] theorem State.emit_out (s : State) (v : Byte) : (s.emit v).out = s.out ++ [v] := rfl

/-! `State.setFlags` -/

@[simp] theorem State.setFlags_mem (s : State) (f : Flags) : (s.setFlags f).mem = s.mem := rfl
@[simp] theorem State.setFlags_regs (s : State) (f : Flags) : (s.setFlags f).regs = s.regs := rfl
@[simp] theorem State.setFlags_pc (s : State) (f : Flags) : (s.setFlags f).pc = s.pc := rfl
@[simp] theorem State.setFlags_flags (s : State) (f : Flags) : (s.setFlags f).flags = f := rfl
@[simp] theorem State.setFlags_run (s : State) (f : Flags) : (s.setFlags f).run = s.run := rfl
@[simp] theorem State.setFlags_out (s : State) (f : Flags) : (s.setFlags f).out = s.out := rfl

/-! `State.setRun` -/

@[simp] theorem State.setRun_mem (s : State) (r : RunStatus) : (s.setRun r).mem = s.mem := rfl
@[simp] theorem State.setRun_regs (s : State) (r : RunStatus) : (s.setRun r).regs = s.regs := rfl
@[simp] theorem State.setRun_pc (s : State) (r : RunStatus) : (s.setRun r).pc = s.pc := rfl
@[simp] theorem State.setRun_flags (s : State) (r : RunStatus) : (s.setRun r).flags = s.flags := rfl
@[simp] theorem State.setRun_run (s : State) (r : RunStatus) : (s.setRun r).run = r := rfl
@[simp] theorem State.setRun_out (s : State) (r : RunStatus) : (s.setRun r).out = s.out := rfl

/-! `raise` -/

@[simp] theorem raise_mem (s : State) (info : FaultInfo) : (raise s info).mem = s.mem := rfl
@[simp] theorem raise_regs (s : State) (info : FaultInfo) : (raise s info).regs = s.regs := rfl
@[simp] theorem raise_pc (s : State) (info : FaultInfo) : (raise s info).pc = s.pc := rfl
@[simp] theorem raise_flags (s : State) (info : FaultInfo) : (raise s info).flags = s.flags := rfl
@[simp] theorem raise_run (s : State) (info : FaultInfo) : (raise s info).run = .faulted (s.faultRecord info) := rfl
@[simp] theorem raise_out (s : State) (info : FaultInfo) : (raise s info).out = s.out := rfl

/-! Reading a register after an update -/

theorem State.reg_eq_of_regs {s t : State} (h : s.regs = t.regs) (i : Fin 8) : s.reg i = t.reg i := by
  simp [State.reg, h]

@[simp] theorem State.reg_setReg_self (s : State) (i : Fin 8) (v : Byte) : (s.setReg i v).reg i = v := by
  simp [State.reg, State.setReg, Vector.get_eq_getElem]

@[simp] theorem State.reg_setReg_of_ne {i j : Fin 8} (h : j ≠ i) (s : State) (v : Byte) :
    (s.setReg i v).reg j = s.reg j := by
  have h' : i.val ≠ j.val := fun e => h (Fin.ext e.symm)
  simp [State.reg, State.setReg, Vector.get_eq_getElem, Vector.getElem_set_ne, h']

/-- A register after a write: the byte written, or what it held. -/
theorem State.reg_setReg (s : State) (i j : Fin 8) (v : Byte) :
    (s.setReg i v).reg j = if j = i then v else s.reg j := by
  by_cases h : j = i
  · subst h; simp
  · simp [h]

@[simp] theorem State.reg_setPc (s : State) (t : Pc) (j : Fin 8) : (s.setPc t).reg j = s.reg j := rfl
@[simp] theorem State.reg_advance (s : State) (n : Nat) (j : Fin 8) : (s.advance n).reg j = s.reg j := rfl
@[simp] theorem State.reg_emit (s : State) (v : Byte) (j : Fin 8) : (s.emit v).reg j = s.reg j := rfl
@[simp] theorem State.reg_setFlags (s : State) (f : Flags) (j : Fin 8) : (s.setFlags f).reg j = s.reg j := rfl
@[simp] theorem State.reg_setRun (s : State) (r : RunStatus) (j : Fin 8) : (s.setRun r).reg j = s.reg j := rfl
@[simp] theorem reg_raise (s : State) (info : FaultInfo) (j : Fin 8) : (raise s info).reg j = s.reg j := rfl

theorem State.sp_eq (s : State) : s.sp = s.reg 7 := rfl

/-- Two states with the same fields are the same state; registers are compared one by one. -/
theorem State.ext_reg {s t : State} (hm : s.mem = t.mem) (hr : ∀ i, s.reg i = t.reg i) (hp : s.pc = t.pc)
    (hf : s.flags = t.flags) (hu : s.run = t.run) (ho : s.out = t.out) : s = t := by
  cases s; cases t
  simp only [State.mk.injEq] at *
  refine ⟨hm, Vector.ext fun i hi => ?_, hp, hf, hu, ho⟩
  simpa [State.reg, Vector.get_eq_getElem] using hr ⟨i, hi⟩

end Sys2Proof.Machine
end

