-- ==== Sys2Proof/Laws/Ops.lean ====
section
/-! SUPPORT. For each shared operation, what it can answer; later proofs cite these instead of unfolding it. -/

namespace Sys2Proof.Machine

/-! ## Plumbing of `Except` -/

theorem except_bind_eq_ok {ε α β : Type} {x : Except ε α} {f : α → Except ε β} {b : β} :
    (x >>= f) = .ok b ↔ ∃ a, x = .ok a ∧ f a = .ok b := by
  cases x <;> simp [bind, Except.bind]

theorem except_bind_eq_error {ε α β : Type} {x : Except ε α} {f : α → Except ε β} {e : ε} :
    (x >>= f) = .error e ↔ x = .error e ∨ ∃ a, x = .ok a ∧ f a = .error e := by
  cases x <;> simp [bind, Except.bind]

@[simp] theorem except_ok_bind {ε α β : Type} (a : α) (f : α → Except ε β) : (Except.ok a >>= f) = f a := rfl

@[simp] theorem except_error_bind {ε α β : Type} (e : ε) (f : α → Except ε β) :
    ((Except.error e : Except ε α) >>= f) = .error e := rfl

@[simp] theorem except_pure {ε α : Type} (a : α) : (pure a : Except ε α) = .ok a := rfl

/-! ## Committing a step -/

@[simp] theorem commit_ok (s t : State) : commit s (.ok t) = .next t := rfl

@[simp] theorem commit_error (s : State) (info : FaultInfo) : commit s (.error info) = .next (raise s info) := rfl

/-- A committed step answers a next state: the effect as a whole, or the fault raised in the state it began in. -/
theorem commit_eq_next {s t : State} {x : Except FaultInfo State} :
    commit s x = .next t ↔ x = .ok t ∨ ∃ info, x = .error info ∧ t = raise s info := by
  cases x <;> simp [commit, eq_comm]

/-- A committed step always answers a next state. -/
theorem commit_answers (s : State) (x : Except FaultInfo State) : ∃ t, commit s x = .next t := by
  cases x <;> simp [commit]

/-! ## Register operands -/

theorem regOperand_eq_ok {b : Byte} {p : OperandPosition} {r : Fin 8} :
    regOperand b p = .ok r ↔ b.toNat = r.val := by
  unfold regOperand
  split
  · simp [Fin.ext_iff]
  · next h => simp; have := r.isLt; omega

theorem regOperand_eq_error {b : Byte} {p : OperandPosition} {info : FaultInfo} :
    regOperand b p = .error info ↔ 7 < b.toNat ∧ info = .invalidRegisterIndex b p := by
  unfold regOperand
  split
  · simp; omega
  · next h => simp [eq_comm]; omega

@[simp] theorem regOperand_ofNat (r : Fin 8) (p : OperandPosition) :
    regOperand (BitVec.ofNat 8 r.val) p = .ok r := by
  rw [regOperand_eq_ok, BitVec.toNat_ofNat]
  have := r.isLt
  omega

theorem regOperands_eq_ok {a b : Byte} {q : Fin 8 × Fin 8} :
    regOperands a b = .ok q ↔ a.toNat = q.1.val ∧ b.toNat = q.2.val := by
  obtain ⟨ra, rb⟩ := q
  simp [regOperands, except_bind_eq_ok, regOperand_eq_ok]

theorem regOperands_eq_error {a b : Byte} {info : FaultInfo} :
    regOperands a b = .error info ↔
      (7 < a.toNat ∧ info = .invalidRegisterIndex a .first) ∨
        (a.toNat ≤ 7 ∧ 7 < b.toNat ∧ info = .invalidRegisterIndex b .second) := by
  simp only [regOperands, except_bind_eq_error, regOperand_eq_error, regOperand_eq_ok, except_pure, reduceCtorEq,
    and_false, exists_false, or_false]
  refine or_congr_right ⟨?_, ?_⟩
  · rintro ⟨x, hx, hb⟩; have := x.isLt; exact ⟨by omega, hb⟩
  · rintro ⟨ha, hb⟩; exact ⟨⟨a.toNat, by omega⟩, rfl, hb⟩

/-! ## Memory accesses -/

/-- A read answers the byte of a cell of 0..255 and nothing else (R24). -/
theorem memRead_eq_ok {s : State} {addr : Int} {access : Access} {v : Byte} :
    memRead s addr access = .ok v ↔ inMemory addr ∧ v = Memory.read s.mem addr.toNat := by
  unfold memRead; split
  · next h => exact ⟨fun e => ⟨h, (Except.ok.inj e).symm⟩, fun e => by rw [e.2]⟩
  · next h => exact ⟨fun e => by simp at e, fun e => absurd e.1 h⟩

theorem memRead_eq_error {s : State} {addr : Int} {access : Access} {info : FaultInfo} :
    memRead s addr access = .error info ↔ ¬ inMemory addr ∧ info = .addressOutOfRange addr access := by
  unfold memRead; split
  · next h => exact ⟨fun e => by simp at e, fun e => absurd h e.1⟩
  · next h => exact ⟨fun e => ⟨h, (Except.error.inj e).symm⟩, fun e => by rw [e.2]⟩

theorem inMemory_byte (b : Byte) : inMemory (b.toNat : Int) := by
  have := b.isLt; constructor <;> omega

@[simp] theorem memRead_byte (s : State) (b : Byte) (access : Access) :
    memRead s (b.toNat : Int) access = .ok (Memory.read s.mem b.toNat) := by
  rw [memRead_eq_ok]; exact ⟨inMemory_byte b, by simp⟩

theorem memWrite_eq_ok {s t : State} {addr : Int} {v : Byte} {access : Access} :
    memWrite s addr v access = .ok t ↔ inMemory addr ∧ t = { s with mem := Memory.write s.mem addr.toNat v } := by
  unfold memWrite; split
  · next h => exact ⟨fun e => ⟨h, (Except.ok.inj e).symm⟩, fun e => by rw [e.2]⟩
  · next h => exact ⟨fun e => by simp at e, fun e => absurd e.1 h⟩

theorem memWrite_eq_error {s : State} {addr : Int} {v : Byte} {access : Access} {info : FaultInfo} :
    memWrite s addr v access = .error info ↔ ¬ inMemory addr ∧ info = .addressOutOfRange addr access := by
  unfold memWrite; split
  · next h => exact ⟨fun e => by simp at e, fun e => absurd h e.1⟩
  · next h => exact ⟨fun e => ⟨h, (Except.error.inj e).symm⟩, fun e => by rw [e.2]⟩

@[simp] theorem memWrite_byte (s : State) (b v : Byte) (access : Access) :
    memWrite s (b.toNat : Int) v access = .ok { s with mem := Memory.write s.mem b.toNat v } := by
  rw [memWrite_eq_ok]; exact ⟨inMemory_byte b, by simp⟩

/-! ## The stack pointer and the return address -/

theorem decSp_eq_ok {s t : State} : decSp s = .ok t ↔ s.sp ≠ 0 ∧ t = s.setReg 7 (s.sp - 1) := by
  unfold decSp; split <;> simp_all [eq_comm]

theorem decSp_eq_error {s : State} {info : FaultInfo} :
    decSp s = .error info ↔ s.sp = 0 ∧ info = .addressOutOfRange (-1) .stackWrite := by
  unfold decSp; split <;> simp_all [eq_comm]

theorem incSp_eq_ok {s t : State} : incSp s = .ok t ↔ s.sp ≠ 255 ∧ t = s.setReg 7 (s.sp + 1) := by
  unfold incSp; split <;> simp_all [eq_comm]

theorem incSp_eq_error {s : State} {info : FaultInfo} :
    incSp s = .error info ↔ s.sp = 255 ∧ info = .addressOutOfRange 256 .spUpdate := by
  unfold incSp; split <;> simp_all [eq_comm]

theorem returnAddress_eq_ok {s : State} {v : Byte} :
    returnAddress s = .ok v ↔ s.pc.toNat + 2 ≤ 255 ∧ v = BitVec.ofNat 8 (s.pc.toNat + 2) := by
  unfold returnAddress; split
  · next h => exact ⟨fun e => ⟨h, (Except.ok.inj e).symm⟩, fun e => by rw [e.2]⟩
  · next h => exact ⟨fun e => by simp at e, fun e => absurd e.1 h⟩

theorem returnAddress_eq_error {s : State} {info : FaultInfo} :
    returnAddress s = .error info ↔ 255 < s.pc.toNat + 2 ∧ info = .addressOutOfRange 256 .returnAddress := by
  unfold returnAddress; split
  · next h => exact ⟨fun e => by simp at e, fun e => absurd e.1 (by omega)⟩
  · next h => exact ⟨fun e => ⟨by omega, (Except.error.inj e).symm⟩, fun e => by rw [e.2]⟩

/-- A store keeps memory canonical: it lands in 0..255 or nowhere. -/
theorem memWrite_wf {s t : State} {addr : Int} {v : Byte} {access : Access} (hw : Memory.wf s.mem = true)
    (h : memWrite s addr v access = .ok t) : Memory.wf t.mem = true := by
  obtain ⟨hin, rfl⟩ := memWrite_eq_ok.1 h
  exact Memory.write_wf v (by unfold inMemory at hin; omega) hw

/-! ## Bytes as numbers -/

theorem byte_toNat_le (b : Byte) : b.toNat ≤ 255 := by have := b.isLt; omega

/-- SP - 1 as a number, where it is not taken from 0. -/
theorem byte_sub_one_toNat {b : Byte} (h : b ≠ 0) : (b - 1).toNat = b.toNat - 1 := by
  have h0 : b.toNat ≠ 0 := fun e => h (BitVec.eq_of_toNat_eq e)
  have := b.isLt
  rw [BitVec.toNat_sub]; simp; omega

/-- SP + 1 as a number, where it does not leave 0..255. -/
theorem byte_add_one_toNat {b : Byte} (h : b ≠ 255) : (b + 1).toNat = b.toNat + 1 := by
  have h0 : b.toNat ≠ 255 := fun e => h (BitVec.eq_of_toNat_eq e)
  have := b.isLt
  rw [BitVec.toNat_add]; simp; omega

/-! ## The program counter -/

@[simp] theorem zextPc_toNat (b : Byte) : (zextPc b).toNat = b.toNat := by
  have := b.isLt; simp [zextPc]; omega

/-- The sum of `pc` and a length is not reduced while it stays in 0..256 (R59). -/
theorem advance_pc_toNat {s : State} {n : Nat} (h : s.pc.toNat + n ≤ 256) :
    (s.advance n).pc.toNat = s.pc.toNat + n := by
  simp only [State.advance_pc, BitVec.toNat_add, BitVec.toNat_ofNat]; omega

end Sys2Proof.Machine
end

