-- ==== Sys2Proof/Laws/Exec.lean ====
section
/-! SUPPORT. What each instruction can answer: its effect as a whole under exactly the conditions of its rule, or one of
the faults of its rule. Later proofs about `exec` split on these instead of unfolding the meanings. -/

namespace Sys2Proof.Machine

variable {s t : State}

theorem execHlt_next (h : execHlt s = .next t) : t = (s.setRun .halted).advance 1 := by
  simpa [execHlt, eq_comm] using h

theorem execLdi_next {b imm : Byte} (h : execLdi b imm s = .next t) :
    (∃ r : Fin 8, b.toNat = r.val ∧ t = (s.setReg r imm).advance 3) ∨
      (7 < b.toNat ∧ t = raise s (.invalidRegisterIndex b .first)) := by
  rw [execLdi, commit_eq_next] at h
  obtain h | ⟨info, h, rfl⟩ := h
  · obtain ⟨r, hr, h⟩ := except_bind_eq_ok.1 h
    exact .inl ⟨r, regOperand_eq_ok.1 hr, by simpa [eq_comm] using h⟩
  · simp only [except_bind_eq_error, except_pure, reduceCtorEq, and_false, exists_false, or_false,
      regOperand_eq_error] at h
    exact .inr ⟨h.1, by rw [h.2]⟩

theorem execPrn_next {b : Byte} (h : execPrn b s = .next t) :
    (∃ r : Fin 8, b.toNat = r.val ∧ t = (s.emit (s.reg r)).advance 2) ∨
      (7 < b.toNat ∧ t = raise s (.invalidRegisterIndex b .first)) := by
  rw [execPrn, commit_eq_next] at h
  obtain h | ⟨info, h, rfl⟩ := h
  · obtain ⟨r, hr, h⟩ := except_bind_eq_ok.1 h
    exact .inl ⟨r, regOperand_eq_ok.1 hr, by simpa [eq_comm] using h⟩
  · simp only [except_bind_eq_error, except_pure, reduceCtorEq, and_false, exists_false, or_false,
      regOperand_eq_error] at h
    exact .inr ⟨h.1, by rw [h.2]⟩

/-- The faults of a pair of register operands, the first one first. -/
def PairFault (a b : Byte) (s t : State) : Prop :=
  (7 < a.toNat ∧ t = raise s (.invalidRegisterIndex a .first)) ∨
    (a.toNat ≤ 7 ∧ 7 < b.toNat ∧ t = raise s (.invalidRegisterIndex b .second))

theorem pairFault_of_error {a b : Byte} {info : FaultInfo} (h : regOperands a b = .error info) :
    PairFault a b s (raise s info) := by
  rcases regOperands_eq_error.1 h with ⟨ha, rfl⟩ | ⟨ha, hb, rfl⟩
  · exact .inl ⟨ha, rfl⟩
  · exact .inr ⟨ha, hb, rfl⟩

theorem applyAlu_next {op : Byte → Byte → Byte} {a b : Byte} (h : commit s (applyAlu op a b s) = .next t) :
    (∃ ra rb : Fin 8, a.toNat = ra.val ∧ b.toNat = rb.val ∧
        t = (s.setReg ra (op (s.reg ra) (s.reg rb))).advance 3) ∨ PairFault a b s t := by
  rw [commit_eq_next] at h
  obtain h | ⟨info, h, rfl⟩ := h
  · obtain ⟨⟨ra, rb⟩, hr, h⟩ := except_bind_eq_ok.1 h
    obtain ⟨ha, hb⟩ := regOperands_eq_ok.1 hr
    exact .inl ⟨ra, rb, ha, hb, by simpa [eq_comm] using h⟩
  · rcases except_bind_eq_error.1 h with h | ⟨q, _, h⟩
    · exact .inr (pairFault_of_error h)
    · simp at h

theorem execMul_next {a b : Byte} (h : execMul a b s = .next t) :
    (∃ ra rb : Fin 8, a.toNat = ra.val ∧ b.toNat = rb.val ∧
        t = (s.setReg ra (aluMul (s.reg ra) (s.reg rb))).advance 3) ∨ PairFault a b s t :=
  applyAlu_next h

theorem execAdd_next {a b : Byte} (h : execAdd a b s = .next t) :
    (∃ ra rb : Fin 8, a.toNat = ra.val ∧ b.toNat = rb.val ∧
        t = (s.setReg ra (aluAdd (s.reg ra) (s.reg rb))).advance 3) ∨ PairFault a b s t :=
  applyAlu_next h

theorem execCmp_next {a b : Byte} (h : execCmp a b s = .next t) :
    (∃ ra rb : Fin 8, a.toNat = ra.val ∧ b.toNat = rb.val ∧
        t = (s.setFlags (compareFlags (s.reg ra) (s.reg rb))).advance 3) ∨ PairFault a b s t := by
  rw [execCmp, commit_eq_next] at h
  obtain h | ⟨info, h, rfl⟩ := h
  · obtain ⟨⟨ra, rb⟩, hr, h⟩ := except_bind_eq_ok.1 h
    obtain ⟨ha, hb⟩ := regOperands_eq_ok.1 hr
    exact .inl ⟨ra, rb, ha, hb, by simpa [eq_comm] using h⟩
  · rcases except_bind_eq_error.1 h with h | ⟨q, _, h⟩
    · exact .inr (pairFault_of_error h)
    · simp at h

/-- What a push of `v` leaves behind, before `pc` moves. -/
def pushed (s : State) (v : Byte) : State :=
  { s.setReg 7 (s.sp - 1) with mem := Memory.write s.mem (s.sp - 1).toNat v }

@[simp] theorem pushed_mem (s : State) (v : Byte) : (pushed s v).mem = Memory.write s.mem (s.sp - 1).toNat v := rfl
@[simp] theorem pushed_reg (s : State) (v : Byte) (i : Fin 8) : (pushed s v).reg i = (s.setReg 7 (s.sp - 1)).reg i := rfl
@[simp] theorem pushed_pc (s : State) (v : Byte) : (pushed s v).pc = s.pc := rfl
@[simp] theorem pushed_flags (s : State) (v : Byte) : (pushed s v).flags = s.flags := rfl
@[simp] theorem pushed_run (s : State) (v : Byte) : (pushed s v).run = s.run := rfl
@[simp] theorem pushed_out (s : State) (v : Byte) : (pushed s v).out = s.out := rfl

theorem execPush_next {b : Byte} (h : execPush b s = .next t) :
    (∃ r : Fin 8, b.toNat = r.val ∧ s.sp ≠ 0 ∧
        t = (pushed s ((s.setReg 7 (s.sp - 1)).reg r)).advance 2) ∨
      (7 < b.toNat ∧ t = raise s (.invalidRegisterIndex b .first)) ∨
      (b.toNat ≤ 7 ∧ s.sp = 0 ∧ t = raise s (.addressOutOfRange (-1) .stackWrite)) := by
  rw [execPush, commit_eq_next] at h
  obtain h | ⟨info, h, rfl⟩ := h
  · obtain ⟨r, hr, h⟩ := except_bind_eq_ok.1 h
    obtain ⟨s₁, hs, h⟩ := except_bind_eq_ok.1 h
    obtain ⟨hsp, rfl⟩ := decSp_eq_ok.1 hs
    refine .inl ⟨r, regOperand_eq_ok.1 hr, hsp, ?_⟩
    rw [memWrite_byte, except_ok_bind, except_pure, Except.ok.injEq] at h
    rw [← h]
    simp only [State.sp_eq, State.reg_setReg_self]
    rfl
  · rcases except_bind_eq_error.1 h with h | ⟨r, hr, h⟩
    · obtain ⟨hb, rfl⟩ := regOperand_eq_error.1 h
      exact .inr (.inl ⟨hb, rfl⟩)
    · have hr := regOperand_eq_ok.1 hr
      rcases except_bind_eq_error.1 h with h | ⟨s₁, _, h⟩
      · obtain ⟨hs, rfl⟩ := decSp_eq_error.1 h
        exact .inr (.inr ⟨by have := r.isLt; omega, hs, rfl⟩)
      · simp at h

theorem execPop_next {b : Byte} (h : execPop b s = .next t) :
    (∃ r : Fin 8, b.toNat = r.val ∧ (s.setReg r (Memory.read s.mem s.sp.toNat)).sp ≠ 255 ∧
        t = ((s.setReg r (Memory.read s.mem s.sp.toNat)).setReg 7
          ((s.setReg r (Memory.read s.mem s.sp.toNat)).sp + 1)).advance 2) ∨
      (7 < b.toNat ∧ t = raise s (.invalidRegisterIndex b .first)) ∨
      (∃ r : Fin 8, b.toNat = r.val ∧ (s.setReg r (Memory.read s.mem s.sp.toNat)).sp = 255 ∧
        t = raise s (.addressOutOfRange 256 .spUpdate)) := by
  rw [execPop, commit_eq_next] at h
  obtain h | ⟨info, h, rfl⟩ := h
  · obtain ⟨r, hr, h⟩ := except_bind_eq_ok.1 h
    rw [memRead_byte, except_ok_bind] at h
    obtain ⟨s₂, hs, h⟩ := except_bind_eq_ok.1 h
    obtain ⟨hsp, rfl⟩ := incSp_eq_ok.1 hs
    exact .inl ⟨r, regOperand_eq_ok.1 hr, hsp, by simpa [eq_comm] using h⟩
  · rcases except_bind_eq_error.1 h with h | ⟨r, hr, h⟩
    · obtain ⟨hb, rfl⟩ := regOperand_eq_error.1 h
      exact .inr (.inl ⟨hb, rfl⟩)
    · rw [memRead_byte, except_ok_bind] at h
      rcases except_bind_eq_error.1 h with h | ⟨s₂, _, h⟩
      · obtain ⟨hs, rfl⟩ := incSp_eq_error.1 h
        exact .inr (.inr ⟨r, regOperand_eq_ok.1 hr, hs, rfl⟩)
      · simp at h

theorem execCall_next {b : Byte} (h : execCall b s = .next t) :
    (∃ r : Fin 8, b.toNat = r.val ∧ s.pc.toNat + 2 ≤ 255 ∧ s.sp ≠ 0 ∧
        t = (pushed s (BitVec.ofNat 8 (s.pc.toNat + 2))).setPc (zextPc ((s.setReg 7 (s.sp - 1)).reg r))) ∨
      (7 < b.toNat ∧ t = raise s (.invalidRegisterIndex b .first)) ∨
      (b.toNat ≤ 7 ∧ 255 < s.pc.toNat + 2 ∧ t = raise s (.addressOutOfRange 256 .returnAddress)) ∨
      (b.toNat ≤ 7 ∧ s.pc.toNat + 2 ≤ 255 ∧ s.sp = 0 ∧ t = raise s (.addressOutOfRange (-1) .stackWrite)) := by
  rw [execCall, commit_eq_next] at h
  obtain h | ⟨info, h, rfl⟩ := h
  · obtain ⟨r, hr, h⟩ := except_bind_eq_ok.1 h
    obtain ⟨ret, hret, h⟩ := except_bind_eq_ok.1 h
    obtain ⟨hpc, rfl⟩ := returnAddress_eq_ok.1 hret
    obtain ⟨s₁, hs, h⟩ := except_bind_eq_ok.1 h
    obtain ⟨hsp, rfl⟩ := decSp_eq_ok.1 hs
    refine .inl ⟨r, regOperand_eq_ok.1 hr, hpc, hsp, ?_⟩
    rw [memWrite_byte, except_ok_bind, except_pure, Except.ok.injEq] at h
    rw [← h]
    simp only [State.sp_eq, State.reg_setReg_self]
    rfl
  · rcases except_bind_eq_error.1 h with h | ⟨r, hr, h⟩
    · obtain ⟨hb, rfl⟩ := regOperand_eq_error.1 h
      exact .inr (.inl ⟨hb, rfl⟩)
    · have hr := regOperand_eq_ok.1 hr
      have hb : b.toNat ≤ 7 := by have := r.isLt; omega
      rcases except_bind_eq_error.1 h with h | ⟨ret, hret, h⟩
      · obtain ⟨hs, rfl⟩ := returnAddress_eq_error.1 h
        exact .inr (.inr (.inl ⟨hb, hs, rfl⟩))
      · obtain ⟨hpc, rfl⟩ := returnAddress_eq_ok.1 hret
        rcases except_bind_eq_error.1 h with h | ⟨s₁, _, h⟩
        · obtain ⟨hs, rfl⟩ := decSp_eq_error.1 h
          exact .inr (.inr (.inr ⟨hb, hpc, hs, rfl⟩))
        · simp at h

theorem execRet_next (h : execRet s = .next t) :
    (s.sp ≠ 255 ∧ t = (s.setReg 7 (s.sp + 1)).setPc (zextPc (Memory.read s.mem s.sp.toNat))) ∨
      (s.sp = 255 ∧ t = raise s (.addressOutOfRange 256 .spUpdate)) := by
  rw [execRet, memRead_byte, except_ok_bind, commit_eq_next] at h
  obtain h | ⟨info, h, rfl⟩ := h
  · obtain ⟨s₁, hs, h⟩ := except_bind_eq_ok.1 h
    obtain ⟨hsp, rfl⟩ := incSp_eq_ok.1 hs
    exact .inl ⟨hsp, by simpa [eq_comm] using h⟩
  · rcases except_bind_eq_error.1 h with h | ⟨s₁, _, h⟩
    · obtain ⟨hs, rfl⟩ := incSp_eq_error.1 h
      exact .inr ⟨hs, rfl⟩
    · simp at h

theorem execJmp_next {b : Byte} (h : execJmp b s = .next t) :
    (∃ r : Fin 8, b.toNat = r.val ∧ t = s.setPc (zextPc (s.reg r))) ∨
      (7 < b.toNat ∧ t = raise s (.invalidRegisterIndex b .first)) := by
  rw [execJmp, commit_eq_next] at h
  obtain h | ⟨info, h, rfl⟩ := h
  · obtain ⟨r, hr, h⟩ := except_bind_eq_ok.1 h
    exact .inl ⟨r, regOperand_eq_ok.1 hr, by simpa [eq_comm] using h⟩
  · simp only [except_bind_eq_error, except_pure, reduceCtorEq, and_false, exists_false, or_false,
      regOperand_eq_error] at h
    exact .inr ⟨h.1, by rw [h.2]⟩

theorem branch_next {taken : Bool} {b : Byte} (h : commit s (branch taken b s) = .next t) :
    (∃ r : Fin 8, b.toNat = r.val ∧ t = if taken then s.setPc (zextPc (s.reg r)) else s.advance 2) ∨
      (7 < b.toNat ∧ t = raise s (.invalidRegisterIndex b .first)) := by
  rw [commit_eq_next] at h
  obtain h | ⟨info, h, rfl⟩ := h
  · obtain ⟨r, hr, h⟩ := except_bind_eq_ok.1 h
    exact .inl ⟨r, regOperand_eq_ok.1 hr, by simpa [eq_comm] using h⟩
  · simp only [branch, except_bind_eq_error, except_pure, reduceCtorEq, and_false, exists_false, or_false,
      regOperand_eq_error] at h
    exact .inr ⟨h.1, by rw [h.2]⟩

theorem execJeq_next {b : Byte} (h : execJeq b s = .next t) :
    (∃ r : Fin 8, b.toNat = r.val ∧ t = if s.flags.e then s.setPc (zextPc (s.reg r)) else s.advance 2) ∨
      (7 < b.toNat ∧ t = raise s (.invalidRegisterIndex b .first)) :=
  branch_next h

theorem execJne_next {b : Byte} (h : execJne b s = .next t) :
    (∃ r : Fin 8, b.toNat = r.val ∧ t = if s.flags.e then s.advance 2 else s.setPc (zextPc (s.reg r))) ∨
      (7 < b.toNat ∧ t = raise s (.invalidRegisterIndex b .first)) := by
  rcases branch_next h with ⟨r, hr, h⟩ | h
  · exact .inl ⟨r, hr, by cases he : s.flags.e <;> simpa [he] using h⟩
  · exact .inr h

/-- An instruction is its execute part, committed; so it always answers a next state. -/
theorem exec_is_commit (i : Instr) (s : State) : ∃ x, exec i s = commit s x := by
  cases i <;> simp only [exec] <;> exact ⟨_, rfl⟩

theorem exec_answers (i : Instr) (s : State) : ∃ t, exec i s = .next t := by
  obtain ⟨x, hx⟩ := exec_is_commit i s
  rw [hx]
  exact commit_answers s x

/-! ## The same as equations: the state each instruction answers when nothing is raised -/

section Equations

variable {b imm a : Byte} {r ra rb : Fin 8}

theorem regOperand_of (h : b.toNat = r.val) (p : OperandPosition) : regOperand b p = .ok r := regOperand_eq_ok.2 h

theorem regOperands_of (ha : a.toNat = ra.val) (hb : b.toNat = rb.val) : regOperands a b = .ok (ra, rb) :=
  regOperands_eq_ok.2 ⟨ha, hb⟩

theorem exec_hlt_eq : exec .hlt s = .next ((s.setRun .halted).advance 1) := rfl

theorem exec_ldi_eq (hb : b.toNat = r.val) : exec (.ldi b imm) s = .next ((s.setReg r imm).advance 3) := by
  simp [exec, execLdi, regOperand_of hb]

theorem exec_prn_eq (hb : b.toNat = r.val) : exec (.prn b) s = .next ((s.emit (s.reg r)).advance 2) := by
  simp [exec, execPrn, regOperand_of hb]

theorem exec_mul_eq (ha : a.toNat = ra.val) (hb : b.toNat = rb.val) :
    exec (.mul a b) s = .next ((s.setReg ra (aluMul (s.reg ra) (s.reg rb))).advance 3) := by
  simp [exec, execMul, applyAlu, regOperands_of ha hb]

theorem exec_add_eq (ha : a.toNat = ra.val) (hb : b.toNat = rb.val) :
    exec (.add a b) s = .next ((s.setReg ra (aluAdd (s.reg ra) (s.reg rb))).advance 3) := by
  simp [exec, execAdd, applyAlu, regOperands_of ha hb]

theorem exec_cmp_eq (ha : a.toNat = ra.val) (hb : b.toNat = rb.val) :
    exec (.cmp a b) s = .next ((s.setFlags (compareFlags (s.reg ra) (s.reg rb))).advance 3) := by
  simp [exec, execCmp, regOperands_of ha hb]

theorem exec_push_eq (hb : b.toNat = r.val) (hs : s.sp ≠ 0) :
    exec (.push b) s = .next ((pushed s ((s.setReg 7 (s.sp - 1)).reg r)).advance 2) := by
  obtain ⟨t, ht⟩ := exec_answers (.push b) s
  rcases execPush_next ht with ⟨r', hb', _, rfl⟩ | ⟨h7, _⟩ | ⟨_, h, _⟩
  · obtain rfl : r = r' := Fin.ext (by omega)
    exact ht
  · have := r.isLt; omega
  · exact absurd h hs

/-- SP as POP increments it: for POP R7 it is the popped byte. -/
theorem sp_after_load (s : State) (r : Fin 8) :
    (s.setReg r (Memory.read s.mem s.sp.toNat)).sp = if r = 7 then Memory.read s.mem s.sp.toNat else s.sp := by
  rw [State.sp_eq, State.reg_setReg]
  by_cases h7 : r = 7
  · simp [h7]
  · simp [h7, Ne.symm h7, State.sp_eq]

theorem exec_pop_eq (hb : b.toNat = r.val) (hs : (s.setReg r (Memory.read s.mem s.sp.toNat)).sp ≠ 255) :
    exec (.pop b) s = .next (((s.setReg r (Memory.read s.mem s.sp.toNat)).setReg 7
      ((s.setReg r (Memory.read s.mem s.sp.toNat)).sp + 1)).advance 2) := by
  obtain ⟨t, ht⟩ := exec_answers (.pop b) s
  rcases execPop_next ht with ⟨r', hb', _, rfl⟩ | ⟨h7, _⟩ | ⟨r', hb', h, _⟩
  · obtain rfl : r = r' := Fin.ext (by omega)
    exact ht
  · have := r.isLt; omega
  · obtain rfl : r = r' := Fin.ext (by omega)
    exact absurd h hs

theorem exec_call_eq (hb : b.toNat = r.val) (hs : s.sp ≠ 0) (hp : s.pc.toNat + 2 ≤ 255) :
    exec (.call b) s = .next ((pushed s (BitVec.ofNat 8 (s.pc.toNat + 2))).setPc
      (zextPc ((s.setReg 7 (s.sp - 1)).reg r))) := by
  obtain ⟨t, ht⟩ := exec_answers (.call b) s
  rcases execCall_next ht with ⟨r', hb', _, _, rfl⟩ | ⟨h7, _⟩ | ⟨_, h, _⟩ | ⟨_, _, h, _⟩
  · obtain rfl : r = r' := Fin.ext (by omega)
    exact ht
  · have := r.isLt; omega
  · omega
  · exact absurd h hs

theorem exec_ret_eq (hs : s.sp ≠ 255) :
    exec .ret s = .next ((s.setReg 7 (s.sp + 1)).setPc (zextPc (Memory.read s.mem s.sp.toNat))) := by
  have : incSp s = .ok _ := incSp_eq_ok.2 ⟨hs, rfl⟩
  simp [exec, execRet, this]

theorem exec_jmp_eq (hb : b.toNat = r.val) : exec (.jmp b) s = .next (s.setPc (zextPc (s.reg r))) := by
  simp [exec, execJmp, regOperand_of hb]

theorem exec_jeq_eq (hb : b.toNat = r.val) :
    exec (.jeq b) s = .next (if s.flags.e then s.setPc (zextPc (s.reg r)) else s.advance 2) := by
  simp [exec, execJeq, branch, regOperand_of hb]

theorem exec_jne_eq (hb : b.toNat = r.val) :
    exec (.jne b) s = .next (if s.flags.e then s.advance 2 else s.setPc (zextPc (s.reg r))) := by
  cases he : s.flags.e <;> simp [exec, execJne, branch, regOperand_of hb, he]

end Equations

end Sys2Proof.Machine
end

