-- ==== Sys2Proof/Laws/Cycle.lean ====
section
/-! SUPPORT. The fetch of an instruction and one step: what each can answer. -/

namespace Sys2Proof.Machine

/-! ## Operand fetch -/

/-- The operand bytes read are the next cells, all of them in memory. -/
theorem readOperands_ok {s : State} {n a : Nat} {bs : List Byte} (h : readOperands s n (a : Int) = .ok bs) :
    bs.length = n ∧ (n = 0 ∨ a + n ≤ 256) ∧ ∀ k, (hk : k < bs.length) → bs[k] = Memory.read s.mem (a + k) := by
  induction n generalizing a bs with
  | zero => simp only [readOperands, Except.ok.injEq] at h; subst h; simp
  | succ n ih =>
    simp only [readOperands, except_bind_eq_ok, except_pure, Except.ok.injEq, memRead_eq_ok] at h
    obtain ⟨b, ⟨hin, rfl⟩, cs, hcs, rfl⟩ := h
    obtain ⟨hl, hr, hk⟩ := ih (a := a + 1) (by exact_mod_cast hcs)
    refine ⟨by simp [hl], ?_, ?_⟩
    · have := hin.2; omega
    · intro k hlt
      cases k with
      | zero => simp
      | succ k =>
        simp only [List.getElem_cons_succ]
        rw [hk k (by simpa using hlt), show a + (k + 1) = a + 1 + k from by omega]

/-- Operand fetch fails only past the end of memory, and always at address 256 (R57). -/
theorem readOperands_error {s : State} {n a : Nat} {info : FaultInfo} (ha : a ≤ 256)
    (h : readOperands s n (a : Int) = .error info) :
    256 < a + n ∧ info = .addressOutOfRange 256 .operand := by
  induction n generalizing a with
  | zero => simp [readOperands] at h
  | succ n ih =>
    simp only [readOperands] at h
    rcases except_bind_eq_error.1 h with h | ⟨b, hb, h⟩
    · obtain ⟨hin, rfl⟩ := memRead_eq_error.1 h
      have : a = 256 := by unfold inMemory at hin; omega
      subst this
      exact ⟨by omega, rfl⟩
    · have hin := (memRead_eq_ok.1 hb).1
      simp only [except_bind_eq_error, except_pure, reduceCtorEq, and_false, exists_false, or_false] at h
      have hlt : a + 1 ≤ 256 := by have := hin.2; omega
      obtain ⟨h1, h2⟩ := ih hlt (by exact_mod_cast h)
      exact ⟨by omega, h2⟩

/-- With all operand bytes in memory, operand fetch reads them. -/
theorem readOperands_answers (s : State) (n a : Nat) (h : a + n ≤ 256) : ∃ bs, readOperands s n (a : Int) = .ok bs := by
  cases hr : readOperands s n (a : Int) with
  | ok bs => exact ⟨bs, rfl⟩
  | error info =>
    have := (readOperands_error (by omega) hr).1
    omega

/-! ## The fetch of an instruction -/

/-- The bytes of a fetched instruction: its opcode byte and as many operand bytes as that one says, all in memory. -/
theorem fetchBytes_ok {s : State} {bs : List Byte} (h : fetchBytes s = .ok bs) :
    (lookup (byteAtPc s)).isSome ∧ bs.head? = some (byteAtPc s) ∧ bs.length = instrLength (byteAtPc s) ∧
      s.pc.toNat + bs.length ≤ 256 ∧ ∀ k, (hk : k < bs.length) → bs[k] = Memory.read s.mem (s.pc.toNat + k) := by
  simp only [fetchBytes, except_bind_eq_ok, memRead_eq_ok, Int.toNat_natCast] at h
  obtain ⟨op, ⟨hin, rfl⟩, h⟩ := h
  change (match lookup (byteAtPc s) with | none => _ | some _ => _) = _ at h
  cases hl : lookup (byteAtPc s) with
  | none => simp [hl] at h
  | some m =>
    simp only [hl, except_bind_eq_ok, except_pure, Except.ok.injEq] at h
    obtain ⟨cs, hcs, rfl⟩ := h
    obtain ⟨hlen, hr, hk⟩ := readOperands_ok (a := s.pc.toNat + 1) (by exact_mod_cast hcs)
    refine ⟨rfl, rfl, by simp only [List.length_cons, instrLength, hlen]; rfl, ?_, ?_⟩
    · simp only [List.length_cons, hlen]
      have := hin.2
      omega
    · intro k hlt
      cases k with
      | zero => simp
      | succ k =>
        simp only [List.getElem_cons_succ]
        rw [hk k (by simpa using hlt), show s.pc.toNat + (k + 1) = s.pc.toNat + 1 + k from by omega]

/-- On the bytes of a fetch the decoder refuses nothing and uses them all. -/
theorem decode_of_fetchBytes {s : State} {bs : List Byte} (h : fetchBytes s = .ok bs) :
    ∃ i, decode bs = .ok (i, []) ∧ encode i = bs := by
  obtain ⟨hsome, hhead, hlen, -, -⟩ := fetchBytes_ok h
  obtain ⟨m, hm⟩ := Option.isSome_iff_exists.1 hsome
  cases bs with
  | nil => simp at hhead
  | cons op cs =>
    simp only [List.head?_cons, Option.some.injEq] at hhead
    subst hhead
    have hop := opc_of_lookup hm
    simp only [List.length_cons, instrLength, Nat.add_right_cancel_iff] at hlen
    obtain ⟨i, hi, hmn, hops⟩ := takeOperands_exact (m := m) (bs := cs) (by rw [hlen, hop])
    exact ⟨i, by simp only [decode, hm]; exact hi, by simp [encode, hmn, hop, hops]⟩

theorem fetchInstr_of_fetchBytes {s : State} {bs : List Byte} (h : fetchBytes s = .ok bs) :
    ∃ i, fetchInstr s = .ok i ∧ encode i = bs := by
  obtain ⟨i, hi, he⟩ := decode_of_fetchBytes h
  exact ⟨i, by simp [fetchInstr, h, hi], he⟩

/-- A fetched instruction lies at `pc`, all of it in memory. -/
theorem bytesAtPc_of_fetchInstr {s : State} {i : Instr} (h : fetchInstr s = .ok i) : BytesAtPc s (encode i) := by
  cases hb : fetchBytes s with
  | error info => simp [fetchInstr, hb] at h
  | ok bs =>
    obtain ⟨j, hj, rfl⟩ := fetchInstr_of_fetchBytes hb
    obtain rfl : i = j := by rw [h] at hj; exact Except.ok.inj hj
    obtain ⟨-, -, -, hle, hk⟩ := fetchBytes_ok hb
    exact ⟨hle, fun k hlt => (hk k hlt).symm⟩

/-- The fetch faults, in their order: nothing at `pc`, an unassigned byte, an operand byte past the end (R97). -/
theorem fetchInstr_error {s : State} {info : FaultInfo} (h : fetchInstr s = .error info) :
    (255 < s.pc.toNat ∧ info = .addressOutOfRange s.pc.toNat .fetch) ∨
      (s.pc.toNat ≤ 255 ∧ lookup (byteAtPc s) = none ∧ info = .unimplementedOpcode (byteAtPc s)) ∨
      (s.pc.toNat ≤ 255 ∧ (lookup (byteAtPc s)).isSome ∧ 255 < s.pc.toNat + operandCount (byteAtPc s) ∧
        info = .addressOutOfRange 256 .operand) := by
  cases hb : fetchBytes s with
  | ok bs =>
    obtain ⟨i, hi, -⟩ := fetchInstr_of_fetchBytes hb
    rw [h] at hi; cases hi
  | error info' =>
    obtain rfl : info' = info := by simpa [fetchInstr, hb] using h
    simp only [fetchBytes] at hb
    rcases except_bind_eq_error.1 hb with hb | ⟨op, hop, hb⟩
    · obtain ⟨hin, rfl⟩ := memRead_eq_error.1 hb
      exact .inl ⟨by unfold inMemory at hin; omega, rfl⟩
    · obtain ⟨hin, rfl⟩ := memRead_eq_ok.1 hop
      have hpc : s.pc.toNat ≤ 255 := by have := hin.2; omega
      simp only [Int.toNat_natCast] at hb
      change (match lookup (byteAtPc s) with | none => _ | some _ => _) = _ at hb
      cases hl : lookup (byteAtPc s) with
      | none =>
        simp only [hl, Except.error.injEq] at hb
        exact .inr (.inl ⟨hpc, rfl, hb.symm⟩)
      | some m =>
        simp only [hl, except_bind_eq_error, except_pure, reduceCtorEq, and_false, exists_false, or_false] at hb
        obtain ⟨hlt, hinfo⟩ := readOperands_error (a := s.pc.toNat + 1) (by omega) (by exact_mod_cast hb)
        refine .inr (.inr ⟨hpc, rfl, ?_, hinfo⟩)
        change 256 < s.pc.toNat + 1 + operandCount (byteAtPc s) at hlt
        omega

/-- The bytes at `pc` decide what is fetched: if an instruction lies there, it is fetched. -/
theorem fetchInstr_of_bytesAtPc {s : State} {i : Instr} (h : BytesAtPc s (encode i)) : fetchInstr s = .ok i := by
  obtain ⟨hle, hk⟩ := h
  have hop : byteAtPc s = opc i.mnemonic := by simpa [encode, byteAtPc] using hk 0 (by simp [encode])
  have hlen := encode_length i
  cases hf : fetchInstr s with
  | error info =>
    rcases fetchInstr_error hf with ⟨h1, -⟩ | ⟨-, h2, -⟩ | ⟨-, -, h3, -⟩
    · omega
    · simp [hop] at h2
    · rw [hop, operandCount_opc] at h3; omega
  | ok j =>
    obtain ⟨-, hk'⟩ := bytesAtPc_of_fetchInstr hf
    have hop' : byteAtPc s = opc j.mnemonic := by simpa [encode, byteAtPc] using hk' 0 (by simp [encode])
    have hm : j.mnemonic = i.mnemonic := by
      have := lookup_opc i.mnemonic
      rw [← hop, hop', lookup_opc] at this
      exact Option.some.inj this
    have hl : (encode j).length = (encode i).length := by
      rw [encode_length, encode_length, ← operandCount_opc, ← operandCount_opc, hm]
    have he : encode j = encode i :=
      List.ext_getElem hl fun k h1 h2 => by rw [← hk' k h1, hk k h2]
    have ho : j.operands = i.operands := by simpa [encode, hm] using he
    have hi := takeOperands_operands i []
    rw [← hm, ← ho, takeOperands_operands j []] at hi
    simp only [Except.ok.injEq, Prod.mk.injEq, and_true] at hi
    rw [hi]

/-! ## One step -/

theorem step_of_fetched {s : State} {i : Instr} (hr : s.run = .running) (hf : fetchInstr s = .ok i) :
    step s = exec i s := by simp [step, hr, hf]

theorem step_of_fetch_fault {s : State} {info : FaultInfo} (hr : s.run = .running) (hf : fetchInstr s = .error info) :
    step s = .next (raise s info) := by simp [step, hr, hf]

/-- A step that answers a next state was taken by a running machine, and either executed the instruction at `pc` or
raised the fault of its fetch. -/
theorem step_next {s t : State} (h : step s = .next t) :
    s.run = .running ∧ ((∃ i, fetchInstr s = .ok i ∧ exec i s = .next t) ∨
      (∃ info, fetchInstr s = .error info ∧ t = raise s info)) := by
  cases hr : s.run with
  | halted => simp [step, hr] at h
  | faulted r => simp [step, hr] at h
  | running =>
    refine ⟨rfl, ?_⟩
    cases hf : fetchInstr s with
    | ok i => exact .inl ⟨i, rfl, by rw [← step_of_fetched hr hf, h]⟩
    | error info =>
      rw [step_of_fetch_fault hr hf] at h
      exact .inr ⟨info, rfl, by simpa [eq_comm] using h⟩

/-- Fetching reads memory and `pc` and nothing else. -/
theorem fetchInstr_congr {s u : State} (hm : u.mem = s.mem) (hp : u.pc = s.pc) : fetchInstr u = fetchInstr s := by
  have ho : ∀ n a, readOperands u n a = readOperands s n a := by
    intro n
    induction n with
    | zero => intro a; rfl
    | succ n ih => intro a; simp only [readOperands, ih, memRead, hm]
  simp only [fetchInstr, fetchBytes, memRead, hm, hp, ho]

/-- The opcode byte at `pc` is that of the instruction lying there. -/
theorem lookup_byteAtPc {s : State} {i : Instr} (h : BytesAtPc s (encode i)) :
    lookup (byteAtPc s) = some i.mnemonic := by
  rw [lookup_eq_some]
  simpa [encode, byteAtPc] using h.2 0 (by simp [encode])

/-- A run of `k + 1` steps is one step and then `k` steps. -/
theorem core_run_succ (s : State) (k : Nat) : Host.Core.run Sys2Proof.core (k + 1) s =
    match step s with
    | .next s' => Host.Core.run Sys2Proof.core k s'
    | .fault r => .fault r
    | .refused r => .refused r := by
  simp only [Host.Core.run]
  cases hs : step s <;> rw [show Sys2Proof.core.step s = _ from hs]

end Sys2Proof.Machine
end

