-- ==== Sys2Proof/Laws/Load.lean ====
section
/-! SUPPORT. Writing a list of bytes into memory: what the cells read as, and the canonical form. -/

namespace Sys2Proof.Machine

/-- A cell after a list of bytes was written: the byte that fell on it, or what it held. -/
theorem read_writeBytes (m : Memory) (b : Nat) (bs : List Byte) (a : Nat) :
    Memory.read (writeBytes m b bs) a =
      if h : b ≤ a ∧ a < b + bs.length then bs[a - b]'(by omega) else Memory.read m a := by
  induction bs generalizing m b with
  | nil => simp [writeBytes]
  | cons c cs ih =>
    simp only [writeBytes, ih, List.length_cons]
    by_cases hab : a = b
    · subst hab; simp
    · by_cases h : b + 1 ≤ a ∧ a < b + 1 + cs.length
      · rw [dif_pos h, dif_pos (by omega)]
        have : a - b = (a - (b + 1)) + 1 := by omega
        simp [this]
      · rw [dif_neg h, dif_neg (by omega), Memory.read_write_of_ne hab]

/-- Bytes that all land in 0..255 keep memory canonical. -/
theorem writeBytes_wf {m : Memory} {b : Nat} {bs : List Byte} (h : Memory.wf m = true) (hb : b + bs.length ≤ 256) :
    Memory.wf (writeBytes m b bs) = true := by
  induction bs generalizing m b with
  | nil => exact h
  | cons c cs ih =>
    simp only [List.length_cons] at hb
    exact ih (Memory.write_wf c (by omega) h) (by omega)

theorem placeAddress_fits (s : State) : placeAddress s + 3 ≤ 256 := by
  unfold placeAddress; split <;> omega

end Sys2Proof.Machine
end

