-- ==== Sys2Proof/Laws/PerInstr.lean ====
section
/-! SUPPORT. Two facts about every instruction as a term, one lemma per constructor: the length its opcode byte
announces is the length of its encoding, and its opcode byte is assigned to it (30_encoding.md R38, R46). -/

namespace Sys2Proof.Laws

/-- The total length in the opcode byte is the number of bytes of the encoding (R38). -/
def EncodedLength.Statement (i : Instr) : Prop := (encode i).length = instrLength (opc i.mnemonic)

theorem EncodedLength.every (i : Instr) : EncodedLength.Statement i := by
  rw [EncodedLength.Statement, encode_length, instrLength, operandCount_opc]

theorem EncodedLength.hlt : EncodedLength.Statement .hlt := EncodedLength.every _
theorem EncodedLength.ldi (r imm : Byte) : EncodedLength.Statement (.ldi r imm) := EncodedLength.every _
theorem EncodedLength.prn (r : Byte) : EncodedLength.Statement (.prn r) := EncodedLength.every _
theorem EncodedLength.mul (a b : Byte) : EncodedLength.Statement (.mul a b) := EncodedLength.every _
theorem EncodedLength.add (a b : Byte) : EncodedLength.Statement (.add a b) := EncodedLength.every _
theorem EncodedLength.push (r : Byte) : EncodedLength.Statement (.push r) := EncodedLength.every _
theorem EncodedLength.pop (r : Byte) : EncodedLength.Statement (.pop r) := EncodedLength.every _
theorem EncodedLength.call (r : Byte) : EncodedLength.Statement (.call r) := EncodedLength.every _
theorem EncodedLength.ret : EncodedLength.Statement .ret := EncodedLength.every _
theorem EncodedLength.cmp (a b : Byte) : EncodedLength.Statement (.cmp a b) := EncodedLength.every _
theorem EncodedLength.jmp (r : Byte) : EncodedLength.Statement (.jmp r) := EncodedLength.every _
theorem EncodedLength.jeq (r : Byte) : EncodedLength.Statement (.jeq r) := EncodedLength.every _
theorem EncodedLength.jne (r : Byte) : EncodedLength.Statement (.jne r) := EncodedLength.every _

/-- The first byte of the encoding is looked up as this instruction's name (R41, R45). -/
def AssignedOpcode.Statement (i : Instr) : Prop :=
  ∃ bs, encode i = opc i.mnemonic :: bs ∧ lookup (opc i.mnemonic) = some i.mnemonic

theorem AssignedOpcode.hlt : AssignedOpcode.Statement .hlt := ⟨_, rfl, rfl⟩
theorem AssignedOpcode.ldi (r imm : Byte) : AssignedOpcode.Statement (.ldi r imm) := ⟨_, rfl, rfl⟩
theorem AssignedOpcode.prn (r : Byte) : AssignedOpcode.Statement (.prn r) := ⟨_, rfl, rfl⟩
theorem AssignedOpcode.mul (a b : Byte) : AssignedOpcode.Statement (.mul a b) := ⟨_, rfl, rfl⟩
theorem AssignedOpcode.add (a b : Byte) : AssignedOpcode.Statement (.add a b) := ⟨_, rfl, rfl⟩
theorem AssignedOpcode.push (r : Byte) : AssignedOpcode.Statement (.push r) := ⟨_, rfl, rfl⟩
theorem AssignedOpcode.pop (r : Byte) : AssignedOpcode.Statement (.pop r) := ⟨_, rfl, rfl⟩
theorem AssignedOpcode.call (r : Byte) : AssignedOpcode.Statement (.call r) := ⟨_, rfl, rfl⟩
theorem AssignedOpcode.ret : AssignedOpcode.Statement .ret := ⟨_, rfl, rfl⟩
theorem AssignedOpcode.cmp (a b : Byte) : AssignedOpcode.Statement (.cmp a b) := ⟨_, rfl, rfl⟩
theorem AssignedOpcode.jmp (r : Byte) : AssignedOpcode.Statement (.jmp r) := ⟨_, rfl, rfl⟩
theorem AssignedOpcode.jeq (r : Byte) : AssignedOpcode.Statement (.jeq r) := ⟨_, rfl, rfl⟩
theorem AssignedOpcode.jne (r : Byte) : AssignedOpcode.Statement (.jne r) := ⟨_, rfl, rfl⟩

end Sys2Proof.Laws
end

