-- ==== Sys2Proof/Tests/Slice0.lean ====
section
/-! SUPPORT. The model's own tests. Expected results come from spec/95_test_vectors.md (V1 to V8), from the worked
examples of the instruction rules, or by hand from the encoding tables; then a witness for each statement that has
hypotheses. -/

namespace Sys2Proof.Tests

open Sys2Proof Sys2Proof.Machine

/-! ## Well-formed instructions: each check refuses an ill-formed term (30_encoding.md R43) -/

theorem test_wf_ldi_register : (Instr.ldi 8 0).wellFormed = false := by decide
theorem test_wf_ldi_immediate_unchecked : (Instr.ldi 7 0xFF).wellFormed = true := by decide
theorem test_wf_prn : (Instr.prn 8).wellFormed = false := by decide
theorem test_wf_mul_first : (Instr.mul 9 0).wellFormed = false := by decide
theorem test_wf_mul_second : (Instr.mul 0 9).wellFormed = false := by decide
theorem test_wf_add_first : (Instr.add 0x80 0).wellFormed = false := by decide
theorem test_wf_add_second : (Instr.add 0 0x80).wellFormed = false := by decide
theorem test_wf_push : (Instr.push 0xFF).wellFormed = false := by decide
theorem test_wf_pop : (Instr.pop 8).wellFormed = false := by decide
theorem test_wf_call : (Instr.call 8).wellFormed = false := by decide
theorem test_wf_cmp_first : (Instr.cmp 8 7).wellFormed = false := by decide
theorem test_wf_cmp_second : (Instr.cmp 7 8).wellFormed = false := by decide
theorem test_wf_jmp : (Instr.jmp 0x17).wellFormed = false := by decide
theorem test_wf_jeq : (Instr.jeq 8).wellFormed = false := by decide
theorem test_wf_jne : (Instr.jne 8).wellFormed = false := by decide
theorem test_wf_no_operand : Instr.hlt.wellFormed = true ∧ Instr.ret.wellFormed = true := by decide

/-! ## Decoding: every constructor from its word, written bit by bit from R45 and R38 -/

theorem test_decode_hlt : decode [0b00000001] = .ok (.hlt, []) := rfl
theorem test_decode_ldi : decode [0b10000010, 0b00000011, 0b00001000] = .ok (.ldi 3 8, []) := rfl
theorem test_decode_prn : decode [0b01000111, 0b00000101] = .ok (.prn 5, []) := rfl
theorem test_decode_mul : decode [0b10100010, 0b00000001, 0b00000010] = .ok (.mul 1 2, []) := rfl
theorem test_decode_add : decode [0b10100000, 0b00000110, 0b00000111] = .ok (.add 6 7, []) := rfl
theorem test_decode_push : decode [0b01000101, 0b00000111] = .ok (.push 7, []) := rfl
theorem test_decode_pop : decode [0b01000110, 0b00000100] = .ok (.pop 4, []) := rfl
theorem test_decode_call : decode [0b01010000, 0b00000001] = .ok (.call 1, []) := rfl
theorem test_decode_ret : decode [0b00010001, 0xAA] = .ok (.ret, [0xAA]) := rfl
theorem test_decode_cmp : decode [0b10100111, 0b00000000, 0b00000001] = .ok (.cmp 0 1, []) := rfl
theorem test_decode_jmp : decode [0b01010100, 0b00000010] = .ok (.jmp 2, []) := rfl
theorem test_decode_jeq : decode [0b01010101, 0b00000010] = .ok (.jeq 2, []) := rfl
theorem test_decode_jne : decode [0b01010110, 0b00000011] = .ok (.jne 3, []) := rfl

/-- V1: the unassigned bytes of the decoder table, among them neighbours of assigned ones. -/
theorem test_decode_unassigned : [0x00, 0x02, 0x05, 0x51, 0xA1, 0xC0, 0xFF].map lookup = List.replicate 7 none := by decide

theorem test_decode_missing_operand : decode [0x82, 0x09] = .error .missingOperand := rfl

/-- V1: the tuple of 0xA7 and the count of 0xC0. -/
theorem test_decodeFields : decodeFields 0xA7 = ⟨2, true, false, 7⟩ ∧ operandCount 0xC0 = 3 := by decide

theorem test_tableWord_ldi : decodeTableWord 24 0x2A0382 = some (.ldi 3 0x2A) := rfl
theorem test_tableWord_short : decodeTableWord 8 0xFF82 = some (.ldi 0 0) := rfl

/-! ## One step on small states -/

/-- A running machine with these registers 0, 1 and 7, `pc` and memory. -/
def machine (x0 x1 sp : Byte) (pc : Pc) (mem : Memory) : State :=
  { State.reset with regs := Vector.mk #[x0, x1, 0x10, 0x0C, 0, 0, 0, sp] rfl, pc := pc, mem := mem }

/-- One field of the next state. -/
def nextField {α : Type} (f : State → α) : Host.Outcome State Fault Refusal → Option α
  | .next t => some (f t)
  | .fault _ => none
  | .refused _ => none

/-- The fault a step ends in. -/
def raised (o : Host.Outcome State Fault Refusal) : Option RunStatus := nextField State.run o

/-- V2: HLT at 255 halts with `pc` = 256. -/
theorem test_step_hlt_at_end :
    nextField (fun t => (t.run, t.pc)) (step (machine 0 0 0xF4 0xFF [(0xFF, 0x01)])) = some (.halted, 0x100) := by decide

/-- V2: PRN R7 emits the stack pointer. -/
theorem test_step_prn : nextField (fun t => (t.out, t.pc)) (step (machine 8 0 0xF4 0 [(0, 0x47), (1, 7)])) =
    some ([244], 2) := by decide

/-- V3: LDI R7, 0x80. -/
theorem test_step_ldi : nextField (fun t => (t.reg 7, t.pc)) (step (machine 0 0 0xF4 0 [(0, 0x82), (1, 7), (2, 0x80)])) =
    some (0x80, 3) := by decide

/-- V3: an operand byte of LDI past the end of memory. -/
theorem test_step_ldi_past_end : raised (step (machine 0 0 0xF4 0xFE [(0xFE, 0x82)])) =
    some (.faulted ⟨some 0xFE, .addressOutOfRange 256 .operand⟩) := by decide

/-- V4: 200 + 100 wraps to 44 and writes R0, not R1. -/
theorem test_exec_add : nextField (fun t => (t.reg 0, t.reg 1)) (exec (.add 0 1) (machine 200 100 0xF4 0 [])) =
    some (44, 100) := by decide

/-- V4: the first operand is checked first. -/
theorem test_exec_add_operand_order : raised (exec (.add 8 9) (machine 0 0 0xF4 0 [])) =
    some (.faulted ⟨some 0, .invalidRegisterIndex 8 .first⟩) := by decide

/-- V4: 200 * 100 is 32 modulo 256. -/
theorem test_exec_mul : nextField (fun t => (t.reg 0, t.pc)) (exec (.mul 0 1) (machine 200 100 0xF4 0 [])) =
    some (32, 3) := by decide

theorem test_exec_mul_second_operand : raised (exec (.mul 1 9) (machine 0 0 0xF4 0 [])) =
    some (.faulted ⟨some 0, .invalidRegisterIndex 9 .second⟩) := by decide

/-- V4: the comparison is unsigned. -/
theorem test_exec_cmp_unsigned : nextField State.flags (exec (.cmp 0 1) (machine 128 127 0xF4 0 [])) =
    some ⟨false, false, true⟩ := by decide

theorem test_exec_cmp_less : nextField State.flags (exec (.cmp 0 1) (machine 5 6 0xF4 0 [])) =
    some ⟨false, true, false⟩ := by decide

/-- V5: PUSH R7 stores the decremented SP. -/
theorem test_exec_push_r7 : nextField (fun t => (t.sp, t.mem)) (exec (.push 7) (machine 0 0 0xF4 0 [])) =
    some (0xF3, [(0xF3, 0xF3)]) := by decide

/-- V5: a push at SP = 0 changes neither SP nor memory. -/
theorem test_exec_push_at_zero : nextField (fun t => (t.run, t.sp, t.mem)) (exec (.push 0) (machine 9 0 0 3 [])) =
    some (.faulted ⟨some 3, .addressOutOfRange (-1) .stackWrite⟩, 0, []) := by decide

/-- V5: POP R7 ends with the popped byte plus one. -/
theorem test_exec_pop_r7 : nextField State.sp (exec (.pop 7) (machine 0 0 0xF3 0 [(0xF3, 0x7F)])) = some 0x80 := by decide

/-- V5: a pop at SP = 255 keeps the destination register. -/
theorem test_exec_pop_at_top : nextField (fun t => (t.run, t.reg 0)) (exec (.pop 0) (machine 0x11 0 0xFF 3 [(0xFF, 7)])) =
    some (.faulted ⟨some 3, .addressOutOfRange 256 .spUpdate⟩, 0x11) := by decide

/-- V6: CALL R7 jumps to the new SP. -/
theorem test_exec_call_r7 : nextField (fun t => (t.pc, t.mem)) (exec (.call 7) (machine 0 0 0xF4 0 [])) =
    some (0xF3, [(0xF3, 2)]) := by decide

/-- V7: at `pc` = 254 and SP = 0 the return address is reported. -/
theorem test_exec_call_priority : raised (exec (.call 0) (machine 0x10 0 0 0xFE [])) =
    some (.faulted ⟨some 0xFE, .addressOutOfRange 256 .returnAddress⟩) := by decide

/-- V6: RET. -/
theorem test_exec_ret : nextField (fun t => (t.pc, t.sp)) (exec .ret (machine 0 0 0xF3 0x0E [(0xF3, 8)])) =
    some (8, 0xF4) := by decide

theorem test_exec_ret_at_top : raised (exec .ret (machine 0 0 0xFF 3 [])) =
    some (.faulted ⟨some 3, .addressOutOfRange 256 .spUpdate⟩) := by decide

/-- V6: JMP R2. -/
theorem test_exec_jmp : nextField State.pc (exec (.jmp 2) (machine 0 0 0xF4 3 [])) = some 0x10 := by decide

/-- V6: JEQ after reset is not taken. -/
theorem test_exec_jeq_not_taken : nextField State.pc (exec (.jeq 2) (machine 0 0 0xF4 0x0C [])) = some 0x0E := by decide

/-- V6: the operand is checked although the branch would not be taken. -/
theorem test_exec_jeq_checks_operand : raised (exec (.jeq 9) (machine 0 0 0xF4 0 [])) =
    some (.faulted ⟨some 0, .invalidRegisterIndex 9 .first⟩) := by decide

/-- V6: JNE before any CMP is taken. -/
theorem test_exec_jne_taken : nextField State.pc (exec (.jne 3) (machine 0 0 0xF4 0x12 [])) = some 0x0C := by decide

/-! ## The cycle, reset and load -/

/-- V7: at 255 an unassigned byte is reported, not a missing operand. -/
theorem test_step_unassigned_at_end : raised (step (machine 0 0 0xF4 0xFF [(0xFF, 0xFF)])) =
    some (.faulted ⟨some 0xFF, .unimplementedOpcode 0xFF⟩) := by decide

/-- V7: `pc` = 256. -/
theorem test_step_past_end : raised (step (machine 0 0 0xF4 0x100 [])) =
    some (.faulted ⟨some 0x100, .addressOutOfRange 256 .fetch⟩) := by decide

/-- V8: the image `82 00 08`. -/
theorem test_boot : (boot [0x82, 0x00, 0x08]).toOption.map State.mem = some [(0, 0x82), (2, 8)] := by decide

/-- R33: 257 bytes are refused. -/
theorem test_boot_refuses : (boot (List.replicate 257 1)).toOption = none := by
  rw [boot, if_neg (by rw [List.length_replicate]; decide)]; rfl

/-- A placed word is what the next step runs, also from a halted machine at the end of memory. -/
theorem test_withFetchWord : nextField (fun t => (t.reg 3, t.run))
    (step (State.withFetchWord { State.reset with pc := 0xFF, run := .halted } 24 0x2A0382)) = some (0x2A, .running) := by decide

/-- R63: 72, 8, 0 and 255. -/
theorem test_sinkText : sinkText [72, 8, 0, 255] = [55, 50, 10, 56, 10, 48, 10, 50, 53, 53, 10] := by decide

/-! ## Witnesses: each statement's hypotheses are met together -/

/-- At `pc` = 0 lies PUSH R0 (a machine whose next step stores). -/
def atPush : State := machine 0x2A 0 0xF4 0 [(0, 0x45)]

theorem witness_LoadPlacesTheImageOrIsRefused :
    ([1] : List Byte).length ≤ 256 ∧ 256 < (List.replicate 257 (1 : Byte)).length := by
  rw [List.length_replicate]; decide

theorem witness_BootedMachineMeetsTheInvariant : ∃ s, boot [0x01] = .ok s := ⟨_, rfl⟩

theorem witness_StepKeepsTheInvariant : ∃ s t, Inv s ∧ step s = .next t := by
  refine ⟨State.reset, _, ⟨rfl, by decide, ?_, ?_⟩, rfl⟩ <;> intros <;> contradiction

/-- A true fault record: PUSH with operand byte 8 (60_exceptions.md R94). -/
theorem test_describes_register_operand :
    Describes (.invalidRegisterIndex 8 .first) (machine 0 0 0xF4 0 [(0, 0x45), (1, 8)]) :=
  ⟨.push 8, ⟨by decide, by decide⟩, by decide⟩

/-- A false one: the immediate of `LDI R0, 8` is no register operand (30_encoding.md R42). -/
theorem test_describes_no_immediate :
    ¬ Describes (.invalidRegisterIndex 8 .second) (machine 0 0 0xF4 0 [(0, 0x82), (2, 8)]) := by
  rintro ⟨i, hi, hm⟩
  obtain rfl : .ldi 0 8 = i := Except.ok.inj (fetchInstr_of_bytesAtPc hi)
  exact absurd hm (by decide)

theorem witness_EveryRunFromAnImageKeepsTheInvariant :
    ∃ s t, boot [0x82, 3, 8, 0x01] = .ok s ∧ Host.Core.run Sys2Proof.core 2 s = .next t ∧ t.run = .halted :=
  ⟨_, _, rfl, rfl, rfl⟩

theorem witness_StepRunsTheDecodedInstruction : atPush.run = .running ∧ BytesAtPc atPush (encode (.push 0)) :=
  ⟨rfl, by decide, by decide⟩

theorem witness_PlacedWordIsRunNext : decodeTableWord 24 0x2A0382 = some (.ldi 3 0x2A) := rfl

theorem witness_StepReadsItsOperandsAndAdvances : ∃ t, fetchInstr atPush = .ok (.push 0) ∧ step atPush = .next t ∧
    t.run = .running ∧ (decodeFields (byteAtPc atPush)).setsPcDirectly = false := ⟨_, rfl, rfl, rfl, by decide⟩

theorem witness_FetchPastMemoryFaults :
    (machine 0 0 0 256 []).run = .running ∧ (machine 0 0 0 256 []).pc.toNat = 256 := by decide

theorem witness_UnassignedOpcodeFaults : State.reset.run = .running ∧ State.reset.pc.toNat ≤ 255 ∧
    ∀ m, opc m ≠ byteAtPc State.reset := ⟨rfl, by decide, fun m => by cases m <;> decide⟩

/-- The boundary of the statement: the last byte of memory is an opcode with an operand. -/
theorem witness_OperandPastMemoryFaults : ∃ s : State, s.run = .running ∧ s.pc.toNat ≤ 255 ∧
    (∃ m, opc m = byteAtPc s) ∧ 255 < s.pc.toNat + operandCount (byteAtPc s) :=
  ⟨machine 0 0 0 255 [(255, 0x45)], rfl, by decide, ⟨.push, by decide⟩, by decide⟩

theorem witness_ExactlyRunningMachinesStep : ∃ s u : State, s.run = .halted ∧
    u.run = .faulted ⟨some 0, .unimplementedOpcode 0⟩ :=
  ⟨State.reset.setRun .halted, State.reset.setRun (.faulted ⟨some 0, .unimplementedOpcode 0⟩), rfl, rfl⟩

theorem witness_FaultsArePrecise : ∃ t, step State.reset = .next t ∧
    t.run = .faulted ⟨some 0, .unimplementedOpcode 0⟩ := ⟨_, rfl, rfl⟩

theorem witness_HaltedOnlyThroughHlt : ∃ t, step (machine 0 0 0 0 [(0, 1)]) = .next t ∧ t.run = .halted := ⟨_, rfl, rfl⟩

theorem witness_RunsEndOnlyHaltedOrFaulted : State.reset.run = .running := rfl

theorem witness_InvalidRegisterOperandFaults :
    (Instr.add 8 0).registerOperands.head? = some 8 ∧ 7 < (8 : Byte).toNat ∧
      (Instr.add 7 8).registerOperands = [7, 8] ∧ (7 : Byte).toNat ≤ 7 := by decide

theorem witness_PushAndCallFaultAtSpZero : (7 : Byte).toNat = (7 : Fin 8).val ∧ (machine 0 0 0 253 []).reg 7 = 0 ∧
    (machine 0 0 0 253 []).pc.toNat + 2 ≤ 255 := by decide

theorem witness_PopAndRetFaultPastTheTop : (7 : Byte).toNat = (7 : Fin 8).val ∧
    Memory.read (machine 0 0 3 0 [(3, 255)]).mem ((machine 0 0 3 0 [(3, 255)]).reg 7).toNat = 255 ∧
    (machine 0 0 255 0 []).reg 7 = 255 := by decide

theorem witness_CallAtTheEndFaults : (0 : Byte).toNat = (0 : Fin 8).val ∧ (machine 0 0 0 254 []).pc.toNat = 254 := by decide

theorem witness_OnlyTabledFaultsAreRaised : ∃ t, (∀ e, State.reset.run ≠ .faulted e) ∧
    exec (.push 8) State.reset = .next t ∧ t.run = .faulted ⟨some 0, .invalidRegisterIndex 8 .first⟩ :=
  ⟨_, (by intro e h; cases h), rfl, rfl⟩

theorem witness_AluFaultIsUnreachable : ∃ t, step State.reset = .next t := ⟨_, rfl⟩

theorem witness_HltHaltsAndChangesNothingElse : (machine 0 0 0 255 []).pc.toNat + 1 ≤ 256 := by decide

/-- For LdiLoadsItsImmediate, AddWrapsAndWritesNoFlag, MulWrapsAndWritesNoFlag and CmpWritesAllThreeFlags: the last place
a 3-byte instruction fits, naming registers 7 and 0. -/
theorem witness_three_byte_results : (7 : Byte).toNat = (7 : Fin 8).val ∧ (0 : Byte).toNat = (0 : Fin 8).val ∧
    (machine 0 0 0 253 []).pc.toNat + 3 ≤ 256 := by decide

/-- For PrnEmitsItsRegister, JeqBranchesOnEqual, JneBranchesOnNotEqual (the last place a 2-byte instruction fits) and
JmpTakesItsTargetFromTheRegister (the first hypothesis alone). -/
theorem witness_two_byte_results : (7 : Byte).toNat = (7 : Fin 8).val ∧
    (machine 0 0 0 254 []).pc.toNat + 2 ≤ 256 := by decide

/-- For PushStoresBelowTheStack, CallPushesTheReturnAddress, PushThenPopRestores and CallThenReturnComesBack: SP = 1, and
the last place where two 2-byte instructions fit. -/
theorem witness_PushStores_CallPushes : (7 : Byte).toNat = (7 : Fin 8).val ∧ (machine 0 0 1 252 []).reg 7 ≠ 0 ∧
    (machine 0 0 1 252 []).pc.toNat + 4 ≤ 256 ∧ (machine 0 0 1 252 []).pc.toNat + 2 ≤ 255 := by decide

theorem witness_PopLoadsFromTheStack : (7 : Byte).toNat = (7 : Fin 8).val ∧
    (machine 0 0 254 254 []).pc.toNat + 2 ≤ 256 ∧
    (if (7 : Fin 8) = 7 then Memory.read (machine 0 0 254 254 []).mem ((machine 0 0 254 254 []).reg 7).toNat
      else (machine 0 0 254 254 []).reg 7) ≠ 255 ∧
    (if (0 : Fin 8) = 7 then (255 : Byte) else (machine 0 0 254 254 []).reg 7) ≠ 255 := by decide

theorem witness_RetPopsTheProgramCounter : (machine 0 0 254 0 []).reg 7 ≠ 255 := by decide

/-- For JeqBranchesOnEqual and JneBranchesOnNotEqual: each clause has its state. -/
theorem witness_branch_clauses : State.reset.flags.e = false ∧
    (State.reset.setFlags ⟨true, false, false⟩).flags.e = true := by decide

/-- For MemReadNeverWraps and MemWriteChangesOneCell: both ends of each clause's range. -/
theorem witness_MemRead_MemWrite : ((255 : Nat) ≤ 255 ∧ (0 : Nat) ≤ 255) ∧ (-1 : Int) < 0 ∧ (255 : Int) < 256 := by decide

/-- For OnlyCmpWritesFlags, OnlyPushAndCallWriteMemory and OnlyTabledRegistersAreWritten: a step that stores and changes
register 7. -/
theorem witness_whole_machine_rules : ∃ t, step atPush = .next t ∧ t.reg 7 ≠ atPush.reg 7 := ⟨_, rfl, by decide⟩

/-- The first clause: PRN R7. -/
theorem witness_OutIsAppendedByPrnAndReadByNothing_legal : ∃ t, step (machine 0 0 0xF4 0 [(0, 0x47), (1, 7)]) = .next t ∧
    fetchInstr (machine 0 0 0xF4 0 [(0, 0x47), (1, 7)]) = .ok (.prn 7) ∧ (7 : Byte).toNat = (7 : Fin 8).val :=
  ⟨_, rfl, rfl, rfl⟩

/-- The second clause, at its boundary: PRN with operand byte 8. -/
theorem witness_OutIsAppendedByPrnAndReadByNothing_illegal : ∃ t, step (machine 0 0 0 0 [(0, 0x47), (1, 8)]) = .next t ∧
    ∀ (b : Byte) (r : Fin 8), fetchInstr (machine 0 0 0 0 [(0, 0x47), (1, 8)]) = .ok (.prn b) → b.toNat ≠ r.val := by
  refine ⟨_, rfl, fun b r h => ?_⟩
  obtain rfl : 8 = b := Instr.prn.inj (Except.ok.inj h)
  exact Nat.ne_of_gt r.isLt

/-- A CMP overwrites an L and a G that stand before it, another step keeps them. -/
theorem witness_LessAndGreaterAreNeverRead :
    nextField State.flags (step (machine 5 6 0 0 [(0, 0xA7), (2, 1)] |>.setFlags ⟨false, false, true⟩)) =
      some ⟨false, true, false⟩ ∧
    nextField State.flags (step (atPush.setFlags ⟨false, false, true⟩)) = some ⟨false, false, true⟩ := by decide

theorem witness_UnreadCellsDoNotMatter : ∃ t, step atPush = .next t ∧ fetchInstr atPush = .ok (.push 0) ∧
    ¬ OwnByte atPush (.push 0) 2 := by
  refine ⟨_, rfl, rfl, ?_⟩
  rintro ⟨-, h⟩
  exact absurd h (by decide)

/-- For UnreadCellsDoNotMatter, its premise about SP: RET at `pc` = 0 with SP = 0xF4, and cell 1. -/
theorem witness_UnreadCells_ret : ∃ s t, step s = .next t ∧ fetchInstr s = .ok .ret ∧ ¬ OwnByte s .ret 1 ∧
    1 ≠ (s.reg 7).toNat := by
  refine ⟨machine 0 0 0xF4 0 [(0, 0x11)], _, rfl, rfl, ?_, by decide⟩
  rintro ⟨-, h⟩
  exact absurd h (by decide)

theorem witness_AddAndMulCommute : (7 : Byte).toNat = (7 : Fin 8).val ∧ (0 : Byte).toNat = (0 : Fin 8).val := by decide

theorem witness_CallThenReturnComesBack : ∃ t, exec (.call 0) (machine 0 0 1 253 []) = .next t ∧ t.reg 7 = t.reg 7 ∧
    Memory.read t.mem (t.reg 7).toNat = 255 := ⟨_, rfl, rfl, by decide⟩

theorem witness_LdiIntoSevenMovesTheStack : (0 : Byte).toNat = (0 : Fin 8).val ∧ (0 : Fin 8) ≠ 7 ∧
    (1 : Byte) ≠ 0 ∧ (254 : Byte) ≠ 255 := by decide

end Sys2Proof.Tests
end

section
/-! PROOFS. What a step can do, said once: each instruction's effect where it completes, each fault with its cause. The
statements of 10_state.md are settled from these two relations and their frame lemmas. -/

namespace Sys2Proof.Machine

variable {s t : State} {i : Instr} {info : FaultInfo}

/-! ## The two ways an instruction can end -/

/-- Instruction `i` raises nothing in `s`, and `t` is its effect as a whole. -/
inductive Completes (s : State) : Instr → State → Prop
  | hlt : Completes s .hlt ((s.setRun .halted).advance 1)
  | ldi {b imm : Byte} {r : Fin 8} (hb : b.toNat = r.val) : Completes s (.ldi b imm) ((s.setReg r imm).advance 3)
  | prn {b : Byte} {r : Fin 8} (hb : b.toNat = r.val) : Completes s (.prn b) ((s.emit (s.reg r)).advance 2)
  | mul {a b : Byte} {ra rb : Fin 8} (ha : a.toNat = ra.val) (hb : b.toNat = rb.val) :
      Completes s (.mul a b) ((s.setReg ra (aluMul (s.reg ra) (s.reg rb))).advance 3)
  | add {a b : Byte} {ra rb : Fin 8} (ha : a.toNat = ra.val) (hb : b.toNat = rb.val) :
      Completes s (.add a b) ((s.setReg ra (aluAdd (s.reg ra) (s.reg rb))).advance 3)
  | push {b : Byte} {r : Fin 8} (hb : b.toNat = r.val) (hsp : s.sp ≠ 0) :
      Completes s (.push b) ((pushed s ((s.setReg 7 (s.sp - 1)).reg r)).advance 2)
  | pop {b : Byte} {r : Fin 8} (hb : b.toNat = r.val) (hsp : (s.setReg r (Memory.read s.mem s.sp.toNat)).sp ≠ 255) :
      Completes s (.pop b) (((s.setReg r (Memory.read s.mem s.sp.toNat)).setReg 7
        ((s.setReg r (Memory.read s.mem s.sp.toNat)).sp + 1)).advance 2)
  | call {b : Byte} {r : Fin 8} (hb : b.toNat = r.val) (hpc : s.pc.toNat + 2 ≤ 255) (hsp : s.sp ≠ 0) :
      Completes s (.call b) ((pushed s (BitVec.ofNat 8 (s.pc.toNat + 2))).setPc
        (zextPc ((s.setReg 7 (s.sp - 1)).reg r)))
  | ret (hsp : s.sp ≠ 255) :
      Completes s .ret ((s.setReg 7 (s.sp + 1)).setPc (zextPc (Memory.read s.mem s.sp.toNat)))
  | cmp {a b : Byte} {ra rb : Fin 8} (ha : a.toNat = ra.val) (hb : b.toNat = rb.val) :
      Completes s (.cmp a b) ((s.setFlags (compareFlags (s.reg ra) (s.reg rb))).advance 3)
  | jmp {b : Byte} {r : Fin 8} (hb : b.toNat = r.val) : Completes s (.jmp b) (s.setPc (zextPc (s.reg r)))
  | jeq {b : Byte} {r : Fin 8} (hb : b.toNat = r.val) :
      Completes s (.jeq b) (if s.flags.e then s.setPc (zextPc (s.reg r)) else s.advance 2)
  | jne {b : Byte} {r : Fin 8} (hb : b.toNat = r.val) :
      Completes s (.jne b) (if s.flags.e then s.advance 2 else s.setPc (zextPc (s.reg r)))

/-- Instruction `i` raises this fault in `s`, in the order of 60_exceptions.md R97: a register operand byte, the first
one first, then the return address, then the stack. -/
inductive Raises (s : State) : Instr → FaultInfo → Prop
  | first {i : Instr} {b : Byte} (h : i.registerOperands.head? = some b) (hb : 7 < b.toNat) :
      Raises s i (.invalidRegisterIndex b .first)
  | second {i : Instr} {a b : Byte} (h : i.registerOperands = [a, b]) (ha : a.toNat ≤ 7) (hb : 7 < b.toNat) :
      Raises s i (.invalidRegisterIndex b .second)
  | push {b : Byte} (hb : b.toNat ≤ 7) (hsp : s.sp = 0) : Raises s (.push b) (.addressOutOfRange (-1) .stackWrite)
  | pop {b : Byte} {r : Fin 8} (hb : b.toNat = r.val)
      (hsp : (s.setReg r (Memory.read s.mem s.sp.toNat)).sp = 255) :
      Raises s (.pop b) (.addressOutOfRange 256 .spUpdate)
  | returnAddress {b : Byte} (hb : b.toNat ≤ 7) (hpc : 255 < s.pc.toNat + 2) :
      Raises s (.call b) (.addressOutOfRange 256 .returnAddress)
  | call {b : Byte} (hb : b.toNat ≤ 7) (hpc : s.pc.toNat + 2 ≤ 255) (hsp : s.sp = 0) :
      Raises s (.call b) (.addressOutOfRange (-1) .stackWrite)
  | ret (hsp : s.sp = 255) : Raises s .ret (.addressOutOfRange 256 .spUpdate)

/-! ## These are all, and they do occur -/

theorem exec_of_completes (h : Completes s i t) : exec i s = .next t := by
  cases h with
  | hlt => exact exec_hlt_eq
  | ldi hb => exact exec_ldi_eq hb
  | prn hb => exact exec_prn_eq hb
  | mul ha hb => exact exec_mul_eq ha hb
  | add ha hb => exact exec_add_eq ha hb
  | push hb hsp => exact exec_push_eq hb hsp
  | pop hb hsp => exact exec_pop_eq hb hsp
  | call hb hpc hsp => exact exec_call_eq hb hsp hpc
  | ret hsp => exact exec_ret_eq hsp
  | cmp ha hb => exact exec_cmp_eq ha hb
  | jmp hb => exact exec_jmp_eq hb
  | jeq hb => exact exec_jeq_eq hb
  | jne hb => exact exec_jne_eq hb

/-- A register operand byte above 7 at position 1 stops every instruction that has one (30_encoding.md R43). -/
theorem exec_of_first_operand_illegal {b : Byte} (h : i.registerOperands.head? = some b) (hb : 7 < b.toNat) :
    exec i s = .next (raise s (.invalidRegisterIndex b .first)) := by
  have one : regOperand b .first = .error (.invalidRegisterIndex b .first) := regOperand_eq_error.2 ⟨hb, rfl⟩
  have pair (c : Byte) : regOperands b c = .error (.invalidRegisterIndex b .first) :=
    regOperands_eq_error.2 (.inl ⟨hb, rfl⟩)
  cases i with
  | hlt | ret => cases h
  | mul a c | add a c => cases h; simp [exec, execMul, execAdd, applyAlu, pair]
  | cmp a c => cases h; simp [exec, execCmp, pair]
  | jeq r | jne r => cases h; simp [exec, execJeq, execJne, branch, one]
  | ldi r imm => cases h; simp [exec, execLdi, one]
  | prn r => cases h; simp [exec, execPrn, one]
  | push r => cases h; simp [exec, execPush, one]
  | pop r => cases h; simp [exec, execPop, one]
  | call r => cases h; simp [exec, execCall, one]
  | jmp r => cases h; simp [exec, execJmp, one]

theorem exec_of_second_operand_illegal {a b : Byte} (h : i.registerOperands = [a, b]) (ha : a.toNat ≤ 7)
    (hb : 7 < b.toNat) : exec i s = .next (raise s (.invalidRegisterIndex b .second)) := by
  have pair : regOperands a b = .error (.invalidRegisterIndex b .second) :=
    regOperands_eq_error.2 (.inr ⟨ha, hb, rfl⟩)
  cases i with
  | mul c d | add c d => cases h; simp [exec, execMul, execAdd, applyAlu, pair]
  | cmp c d => cases h; simp [exec, execCmp, pair]
  | _ => cases h

theorem legal_register {b : Byte} (h : b.toNat ≤ 7) : ∃ r : Fin 8, b.toNat = r.val := ⟨⟨b.toNat, by omega⟩, rfl⟩

theorem exec_of_raises (h : Raises s i info) : exec i s = .next (raise s info) := by
  cases h with
  | first h hb => exact exec_of_first_operand_illegal h hb
  | second h ha hb => exact exec_of_second_operand_illegal h ha hb
  | push hb hsp =>
    obtain ⟨r, hr⟩ := legal_register hb
    simp [exec, execPush, regOperand_of hr, decSp_eq_error.2 ⟨hsp, rfl⟩]
  | pop hb hsp => simp [exec, execPop, regOperand_of hb, incSp_eq_error.2 ⟨hsp, rfl⟩]
  | returnAddress hb hpc =>
    obtain ⟨r, hr⟩ := legal_register hb
    simp [exec, execCall, regOperand_of hr, returnAddress_eq_error.2 ⟨hpc, rfl⟩]
  | call hb hpc hsp =>
    obtain ⟨r, hr⟩ := legal_register hb
    simp [exec, execCall, regOperand_of hr, returnAddress_eq_ok.2 ⟨hpc, rfl⟩, decSp_eq_error.2 ⟨hsp, rfl⟩]
  | ret hsp => simp [exec, execRet, incSp_eq_error.2 ⟨hsp, rfl⟩]

/-- `t` is the state that `i` leaves by raising a fault of its own. -/
def RaisesInto (s : State) (i : Instr) (t : State) : Prop := ∃ info, Raises s i info ∧ t = raise s info

theorem raisesInto_of_first {b : Byte} (h : i.registerOperands.head? = some b) :
    7 < b.toNat ∧ t = raise s (.invalidRegisterIndex b .first) → RaisesInto s i t
  | ⟨hb, ht⟩ => ⟨_, .first h hb, ht⟩

theorem raisesInto_of_pairFault {a b : Byte} (h : i.registerOperands = [a, b]) : PairFault a b s t → RaisesInto s i t
  | .inl ⟨ha, ht⟩ => ⟨_, .first (by rw [h]; rfl) ha, ht⟩
  | .inr ⟨ha, hb, ht⟩ => ⟨_, .second h ha hb, ht⟩

/-- What an instruction can answer: its effect as a whole, or the state it began in with one of its faults raised. -/
theorem exec_next (h : exec i s = .next t) : Completes s i t ∨ RaisesInto s i t := by
  cases i with
  | hlt => obtain rfl := execHlt_next h; exact .inl .hlt
  | ldi b imm =>
    refine (execLdi_next h).imp ?_ (raisesInto_of_first rfl)
    rintro ⟨r, hb, rfl⟩; exact .ldi hb
  | prn b =>
    refine (execPrn_next h).imp ?_ (raisesInto_of_first rfl)
    rintro ⟨r, hb, rfl⟩; exact .prn hb
  | mul a b =>
    refine (execMul_next h).imp ?_ (raisesInto_of_pairFault rfl)
    rintro ⟨ra, rb, ha, hb, rfl⟩; exact .mul ha hb
  | add a b =>
    refine (execAdd_next h).imp ?_ (raisesInto_of_pairFault rfl)
    rintro ⟨ra, rb, ha, hb, rfl⟩; exact .add ha hb
  | push b =>
    obtain ⟨r, hb, hsp, rfl⟩ | h | ⟨hb, hsp, ht⟩ := execPush_next h
    · exact .inl (.push hb hsp)
    · exact .inr (raisesInto_of_first rfl h)
    · exact .inr ⟨_, .push hb hsp, ht⟩
  | pop b =>
    obtain ⟨r, hb, hsp, rfl⟩ | h | ⟨r, hb, hsp, ht⟩ := execPop_next h
    · exact .inl (.pop hb hsp)
    · exact .inr (raisesInto_of_first rfl h)
    · exact .inr ⟨_, .pop hb hsp, ht⟩
  | call b =>
    obtain ⟨r, hb, hpc, hsp, rfl⟩ | h | ⟨hb, hpc, ht⟩ | ⟨hb, hpc, hsp, ht⟩ := execCall_next h
    · exact .inl (.call hb hpc hsp)
    · exact .inr (raisesInto_of_first rfl h)
    · exact .inr ⟨_, .returnAddress hb hpc, ht⟩
    · exact .inr ⟨_, .call hb hpc hsp, ht⟩
  | ret =>
    obtain ⟨hsp, rfl⟩ | ⟨hsp, ht⟩ := execRet_next h
    · exact .inl (.ret hsp)
    · exact .inr ⟨_, .ret hsp, ht⟩
  | cmp a b =>
    refine (execCmp_next h).imp ?_ (raisesInto_of_pairFault rfl)
    rintro ⟨ra, rb, ha, hb, rfl⟩; exact .cmp ha hb
  | jmp b =>
    refine (execJmp_next h).imp ?_ (raisesInto_of_first rfl)
    rintro ⟨r, hb, rfl⟩; exact .jmp hb
  | jeq b =>
    refine (execJeq_next h).imp ?_ (raisesInto_of_first rfl)
    rintro ⟨r, hb, rfl⟩; exact .jeq hb
  | jne b =>
    refine (execJne_next h).imp ?_ (raisesInto_of_first rfl)
    rintro ⟨r, hb, rfl⟩; exact .jne hb

/-- A step of `s` raises this fault: its fetch does, or the instruction fetched. -/
def StepRaises (s : State) (info : FaultInfo) : Prop :=
  fetchInstr s = .error info ∨ ∃ i, fetchInstr s = .ok i ∧ Raises s i info

/-- What a step is: a running machine completes the instruction at `pc`, or changes nothing but raise a fault. -/
theorem step_eq_next : step s = .next t ↔ s.run = .running ∧
    ((∃ i, fetchInstr s = .ok i ∧ Completes s i t) ∨ ∃ info, StepRaises s info ∧ t = raise s info) := by
  constructor
  · intro h
    obtain ⟨hrun, ⟨i, hf, h⟩ | ⟨info, hf, ht⟩⟩ := step_next h
    · obtain hc | ⟨info, hr, ht⟩ := exec_next h
      · exact ⟨hrun, .inl ⟨i, hf, hc⟩⟩
      · exact ⟨hrun, .inr ⟨info, .inr ⟨i, hf, hr⟩, ht⟩⟩
    · exact ⟨hrun, .inr ⟨info, .inl hf, ht⟩⟩
  · rintro ⟨hrun, ⟨i, hf, hc⟩ | ⟨info, hf | ⟨i, hf, hr⟩, rfl⟩⟩
    · rw [step_of_fetched hrun hf, exec_of_completes hc]
    · exact step_of_fetch_fault hrun hf
    · rw [step_of_fetched hrun hf, exec_of_raises hr]

/-! ## The frame of a completed instruction -/

/-- Only HLT writes `run` (10_state.md R18). -/
theorem Completes.halts_or_keeps_run (h : Completes s i t) :
    (i = .hlt ∧ t = (s.setRun .halted).advance 1) ∨ t.run = s.run := by
  cases h with
  | hlt => exact .inl ⟨rfl, rfl⟩
  | jeq | jne => right; split <;> rfl
  | _ => exact .inr rfl

theorem Completes.flags_eq (h : Completes s i t) : t.flags = s.flags ∨ ∃ a b, i = .cmp a b := by
  cases h with
  | cmp => exact .inr ⟨_, _, rfl⟩
  | jeq | jne => left; split <;> rfl
  | _ => exact .inl rfl

/-- Memory is as before, or PUSH or CALL stored one byte just below the stack (10_state.md R21). -/
theorem Completes.mem_eq (h : Completes s i t) : t.mem = s.mem ∨
    ((∃ b, i = .push b ∨ i = .call b) ∧ s.sp ≠ 0 ∧ ∃ v, t.mem = Memory.write s.mem (s.sp - 1).toNat v) := by
  cases h with
  | push _ hsp => exact .inr ⟨⟨_, .inl rfl⟩, hsp, _, rfl⟩
  | call _ _ hsp => exact .inr ⟨⟨_, .inr rfl⟩, hsp, _, rfl⟩
  | jeq | jne => left; split <;> rfl
  | _ => exact .inl rfl

theorem Completes.mem_wf (h : Completes s i t) (hw : Memory.wf s.mem = true) : Memory.wf t.mem = true := by
  obtain hm | ⟨-, -, v, hm⟩ := h.mem_eq
  · rwa [hm]
  · rw [hm]; exact Memory.write_wf v (BitVec.isLt _) hw

/-- Where the instruction lies in memory, its `pc` update stays in 0..256 (10_state.md R14): it is the advance by the
instruction's length, or a byte. -/
theorem Completes.pc_le (h : Completes s i t) (hl : s.pc.toNat + (encode i).length ≤ 256) : t.pc.toNat ≤ 256 := by
  have jump (u : State) (b : Byte) : (u.setPc (zextPc b)).pc.toNat ≤ 256 := by
    rw [State.setPc_pc, zextPc_toNat]; exact Nat.le_succ_of_le (byte_toNat_le b)
  have advance (u : State) (hu : u.pc = s.pc) (n : Nat) (hn : s.pc.toNat + n ≤ 256) :
      (u.advance n).pc.toNat ≤ 256 := by
    rw [← hu] at hn; rwa [advance_pc_toNat hn]
  cases h with
  | call | ret | jmp => exact jump _ _
  | jeq => split; exacts [jump _ _, advance _ rfl _ hl]
  | jne => split; exacts [advance _ rfl _ hl, jump _ _]
  | _ => exact advance _ rfl _ hl

/-! ## A fault has its cause in the state that shows it -/

theorem mayRaise_of_raises (h : Raises s i info) : mayRaise i info = true := by
  cases h with
  | first h hb =>
    obtain ⟨tl, h⟩ := List.head?_eq_some_iff.1 h
    simpa [mayRaise, hasRegisterByte, namesRegister, h] using hb
  | second h ha hb => simpa [mayRaise, hasRegisterByte, namesRegister, h] using hb
  | _ => rfl

theorem wellFormed_of_single {b : Byte} (h : i.registerOperands = [b]) (hb : b.toNat ≤ 7) : i.wellFormed = true := by
  simp [Instr.wellFormed, namesRegister, h, hb]

theorem describes_of_raises (h : Raises s i info) (hat : BytesAtPc s (encode i)) : Describes info s := by
  have hmay := mayRaise_of_raises h
  cases h with
  | first | second => exact ⟨i, hat, hmay⟩
  | push hb hsp => exact ⟨_, hat, hmay, wellFormed_of_single rfl hb, hsp⟩
  | call hb _ hsp => exact ⟨_, hat, hmay, wellFormed_of_single rfl hb, hsp⟩
  | returnAddress hb hpc =>
    have hlen : s.pc.toNat + 2 ≤ 256 := hat.1
    exact ⟨_, hat, hmay, wellFormed_of_single rfl hb, by omega⟩
  | @pop b r hb hsp =>
    have hr : b = 7 ↔ r = 7 := by simp [BitVec.toNat_eq, Fin.ext_iff, hb]
    rw [sp_after_load] at hsp
    refine ⟨_, hat, hmay, wellFormed_of_single rfl (by omega), ?_⟩
    simpa only [Instr.registerOperands, List.cons.injEq, and_true, hr] using hsp
  | ret hsp => exact ⟨_, hat, hmay, rfl, hsp⟩

theorem describes_of_fetch_error (h : fetchInstr s = .error info) (hpc : s.pc.toNat ≤ 256) : Describes info s := by
  obtain ⟨h255, rfl⟩ | ⟨h255, hl, rfl⟩ | ⟨h255, hl, hlong, rfl⟩ := fetchInstr_error h
  · have : s.pc.toNat = 256 := by omega
    exact ⟨by rw [this]; rfl, this⟩
  · exact ⟨h255, rfl, hl⟩
  · exact ⟨rfl, h255, hl, hlong⟩

theorem describes_of_stepRaises (h : StepRaises s info) (hpc : s.pc.toNat ≤ 256) : Describes info s := by
  obtain hf | ⟨i, hf, hr⟩ := h
  · exact describes_of_fetch_error hf hpc
  · exact describes_of_raises hr (bytesAtPc_of_fetchInstr hf)

/-- Raising a fault hides nothing: `Describes` does not look at `run`. -/
theorem describes_raise {cause : FaultInfo} : Describes cause (raise s info) ↔ Describes cause s := Iff.rfl

/-! ## The invariant is kept (R14, R18) -/

theorem inv_raise (hi : Inv s) (h : StepRaises s info) : Inv (raise s info) where
  memory := hi.memory
  pcRange := hi.pcRange
  halted := nofun
  faulted := by
    intro record hrec
    obtain rfl : s.faultRecord info = record := RunStatus.faulted.inj hrec
    exact ⟨rfl, describes_raise.2 (describes_of_stepRaises h hi.pcRange)⟩

theorem inv_of_completes (hi : Inv s) (hrun : s.run = .running) (hat : BytesAtPc s (encode i))
    (h : Completes s i t) : Inv t := by
  refine ⟨h.mem_wf hi.memory, h.pc_le hat.1, fun hhalt => ?_, fun record hrec => ?_⟩
  · obtain ⟨rfl, rfl⟩ | hkeep := h.halts_or_keeps_run
    · have hpc : ((s.setRun .halted).advance 1).pc.toNat = s.pc.toNat + 1 := advance_pc_toNat hat.1
      rw [hpc]
      exact ⟨Nat.le_add_left 1 _, lookup_byteAtPc hat⟩
    · rw [hkeep, hrun] at hhalt; cases hhalt
  · obtain ⟨-, rfl⟩ | hkeep := h.halts_or_keeps_run
    · cases hrec
    · rw [hkeep, hrun] at hrec; cases hrec

/-- Settles O5: a completed instruction by its frame, a raised fault by the cause it has in the state. -/
theorem stepKeepsTheInvariant : Obligations.StepKeepsTheInvariant := by
  intro s t hi h
  obtain ⟨hrun, ⟨i, hf, hc⟩ | ⟨info, hr, rfl⟩⟩ := step_eq_next.1 h
  · exact inv_of_completes hi hrun (bytesAtPc_of_fetchInstr hf) hc
  · exact inv_raise hi hr

/-! ## What no instruction reads -/

/-- The registers, `pc` and memory decide which faults an instruction raises. -/
theorem raises_congr {u : State} (hm : u.mem = s.mem) (hr : u.regs = s.regs) (hp : u.pc = s.pc)
    (h : Raises s i info) : Raises u i info := by
  have hsp : u.sp = s.sp := State.reg_eq_of_regs hr 7
  cases h with
  | first h hb => exact .first h hb
  | second h ha hb => exact .second h ha hb
  | push hb h => exact .push hb (hsp.trans h)
  | pop hb h => exact .pop hb (by rwa [sp_after_load, hm, hsp, ← sp_after_load])
  | returnAddress hb hpc => exact .returnAddress hb (by rwa [hp])
  | call hb hpc h => exact .call hb (by rwa [hp]) (hsp.trans h)
  | ret h => exact .ret (hsp.trans h)

theorem stepRaises_congr {u : State} (hm : u.mem = s.mem) (hr : u.regs = s.regs) (hp : u.pc = s.pc)
    (h : StepRaises s info) : StepRaises u info := by
  have hfetch := fetchInstr_congr hm hp
  obtain hf | ⟨i, hf, h⟩ := h
  · exact .inl (hfetch.trans hf)
  · exact .inr ⟨i, hfetch.trans hf, raises_congr hm hr hp h⟩

/-- A machine with the memory, `pc` and run status of `s` fetches what `s` fetches. -/
theorem step_of_completes_congr {u v : State} (hrun : s.run = .running) (hf : fetchInstr s = .ok i)
    (hc : Completes u i v) (hm : u.mem = s.mem) (hp : u.pc = s.pc) (hu : u.run = s.run) : step u = .next v :=
  step_eq_next.2 ⟨hu.trans hrun, .inl ⟨i, (fetchInstr_congr hm hp).trans hf, hc⟩⟩

/-- A machine with the registers besides raises what `s` raises. -/
theorem step_of_raises_congr {u : State} (hrun : s.run = .running) (h : StepRaises s info) (hm : u.mem = s.mem)
    (hr : u.regs = s.regs) (hp : u.pc = s.pc) (hu : u.run = s.run) : step u = .next (raise u info) :=
  step_eq_next.2 ⟨hu.trans hrun, .inr ⟨info, stepRaises_congr hm hr hp h, rfl⟩⟩

/-- The state with other flags and another output sequence. -/
def State.mapFlagsOut (f : Flags → Flags) (g : List Byte → List Byte) (s : State) : State :=
  { s with flags := f s.flags, out := g s.out }

/-- An instruction other than CMP and PRN reads of the flags only E and of the output nothing, and writes neither: with
other ones it completes in the same way, and the other ones still stand. -/
theorem Completes.mapFlagsOut {f : Flags → Flags} (g : List Byte → List Byte) (h : Completes s i t)
    (he : ∀ x, (f x).e = x.e) (hcmp : ∀ a b, i ≠ .cmp a b) (hprn : ∀ b, i ≠ .prn b) :
    Completes (s.mapFlagsOut f g) i (t.mapFlagsOut f g) := by
  cases h with
  | hlt => exact .hlt
  | ldi hb => exact .ldi hb
  | prn => exact absurd rfl (hprn _)
  | mul ha hb => exact .mul ha hb
  | add ha hb => exact .add ha hb
  | push hb hsp => exact .push hb hsp
  | pop hb hsp => exact .pop hb hsp
  | call hb hpc hsp => exact .call hb hpc hsp
  | ret hsp => exact .ret hsp
  | cmp => exact absurd rfl (hcmp _ _)
  | jmp hb => exact .jmp hb
  | jeq hb => rw [apply_ite (State.mapFlagsOut f g), ← he]; exact .jeq hb
  | jne hb => rw [apply_ite (State.mapFlagsOut f g), ← he]; exact .jne hb

theorem Completes.with_other_lg (h : Completes s i t) (l g : Bool) :
    ∃ l' g', Completes { s with flags := { s.flags with l := l, g := g } } i
        { t with flags := { t.flags with l := l', g := g' } } ∧
      ((l' = l ∧ g' = g ∧ t.flags = s.flags) ∨ (l' = t.flags.l ∧ g' = t.flags.g ∧ ∃ a b, i = .cmp a b)) := by
  by_cases hcmp : ∃ a b, i = .cmp a b
  · obtain ⟨a, b, rfl⟩ := hcmp
    cases h with
    | cmp ha hb => exact ⟨_, _, .cmp ha hb, .inr ⟨rfl, rfl, a, b, rfl⟩⟩
  · refine ⟨l, g, ?_, .inl ⟨rfl, rfl, h.flags_eq.resolve_right hcmp⟩⟩
    by_cases hprn : ∃ b, i = .prn b
    · obtain ⟨b, rfl⟩ := hprn
      cases h with
      | prn hb => exact .prn hb
    · exact h.mapFlagsOut (f := fun x => { x with l := l, g := g }) id (fun _ => rfl)
        (fun a b e => hcmp ⟨a, b, e⟩) (fun b e => hprn ⟨b, e⟩)

/-- Settles O47: every step but a CMP carries the other L and G along, and a CMP overwrites them. -/
theorem lessAndGreaterAreNeverRead : Obligations.LessAndGreaterAreNeverRead := by
  intro s t l g h
  obtain ⟨hrun, ⟨i, hf, hc⟩ | ⟨info, hr, rfl⟩⟩ := step_eq_next.1 h
  · obtain ⟨l', g', hc', hlg⟩ := hc.with_other_lg l g
    refine ⟨l', g', step_of_completes_congr hrun hf hc' rfl rfl rfl, ?_⟩
    simpa only [hf, Except.ok.injEq] using hlg
  · exact ⟨l, g, step_of_raises_congr hrun hr rfl rfl rfl rfl, .inl ⟨rfl, rfl, rfl⟩⟩

/-! ## Halting and flags -/

/-- Settles O20: a fault does not halt, and of the instructions only HLT does. -/
theorem haltedOnlyThroughHlt : Obligations.HaltedOnlyThroughHlt := by
  intro s t h hhalt
  obtain ⟨hrun, ⟨i, hf, hc⟩ | ⟨info, hr, rfl⟩⟩ := step_eq_next.1 h
  · obtain ⟨rfl, rfl⟩ | hkeep := hc.halts_or_keeps_run
    · exact ⟨hf, rfl, advance_pc_toNat (s := s.setRun .halted) (bytesAtPc_of_fetchInstr hf).1⟩
    · rw [hkeep, hrun] at hhalt; cases hhalt
  · cases hhalt

/-- Settles O43: a fault writes no flag, and a completed instruction does only if it is a CMP. -/
theorem onlyCmpWritesFlags : Obligations.OnlyCmpWritesFlags := by
  intro s t h
  obtain ⟨hrun, ⟨i, hf, hc⟩ | ⟨info, hr, rfl⟩⟩ := step_eq_next.1 h
  · simpa only [hf, Except.ok.injEq] using hc.flags_eq
  · exact .inl rfl

/-! ## The output -/

theorem Completes.out_eq (h : Completes s i t) :
    t.out = s.out ∨ ∃ (b : Byte) (r : Fin 8), i = .prn b ∧ b.toNat = r.val := by
  cases h with
  | prn hb => exact .inr ⟨_, _, rfl, hb⟩
  | jeq | jne => left; split <;> rfl
  | _ => exact .inl rfl

theorem Completes.with_other_out (h : Completes s i t) (earlier : List Byte) :
    ∃ new, t.out = s.out ++ new ∧ Completes { s with out := earlier } i { t with out := earlier ++ new } := by
  by_cases hprn : ∃ b, i = .prn b
  · obtain ⟨b, rfl⟩ := hprn
    cases h with
    | prn hb => exact ⟨_, rfl, .prn hb⟩
  · have hout : t.out = s.out := h.out_eq.resolve_right fun ⟨b, _, e, _⟩ => hprn ⟨b, e⟩
    refine ⟨[], by rw [hout, List.append_nil], ?_⟩
    rw [List.append_nil]
    by_cases hcmp : ∃ a b, i = .cmp a b
    · obtain ⟨a, b, rfl⟩ := hcmp
      cases h with
      | cmp ha hb => exact .cmp ha hb
    · exact h.mapFlagsOut (f := id) (fun _ => earlier) (fun _ => rfl)
        (fun a b e => hcmp ⟨a, b, e⟩) (fun b e => hprn ⟨b, e⟩)

theorem step_out_of_prn {b : Byte} {r : Fin 8} (h : step s = .next t) (hf : fetchInstr s = .ok (.prn b))
    (hb : b.toNat = r.val) : t.out = s.out ++ [s.reg r] := by
  rw [step_of_fetched (step_next h).1 hf, exec_prn_eq hb, Host.Outcome.next.injEq] at h
  rw [← h]; rfl

/-- Settles O44: a fault appends nothing, and an instruction that completes appends the same whatever stood before. -/
theorem outIsAppendedByPrnAndReadByNothing : Obligations.OutIsAppendedByPrnAndReadByNothing := by
  intro s t h
  refine ⟨fun b r hf hb => step_out_of_prn h hf hb, ?_⟩
  obtain ⟨hrun, ⟨i, hf, hc⟩ | ⟨info, hr, rfl⟩⟩ := step_eq_next.1 h
  · refine ⟨fun hno => hc.out_eq.resolve_right ?_, fun earlier => ?_⟩
    · rintro ⟨b, r, rfl, hb⟩; exact hno b r hf hb
    · obtain ⟨new, hnew, hc'⟩ := hc.with_other_out earlier
      exact ⟨new, hnew, step_of_completes_congr hrun hf hc' rfl rfl rfl⟩
  · refine ⟨fun _ => rfl, fun earlier => ⟨[], (List.append_nil _).symm, ?_⟩⟩
    rw [List.append_nil]
    exact step_of_raises_congr hrun hr rfl rfl rfl rfl

/-! ## Memory and registers -/

/-- Settles O45: a fault stores nothing, and the one byte a PUSH or CALL stores falls on SP - 1. -/
theorem onlyPushAndCallWriteMemory : Obligations.OnlyPushAndCallWriteMemory := by
  intro s t h
  obtain ⟨hrun, ⟨i, hf, hc⟩ | ⟨info, hr, rfl⟩⟩ := step_eq_next.1 h
  · refine hc.mem_eq.imp_right ?_
    rintro ⟨⟨b, hi⟩, hsp, v, hm⟩
    refine ⟨⟨b, by simpa only [hf, Except.ok.injEq] using hi⟩, hsp, fun a ha => ?_⟩
    rw [← State.sp_eq, ← byte_sub_one_toNat hsp] at ha
    rw [hm, Memory.read_write_of_ne ha]
  · exact .inl rfl

theorem eq_of_setReg_changed {r j : Fin 8} {v : Byte} (h : (s.setReg r v).reg j ≠ s.reg j) : j = r :=
  not_not.1 fun hj => h (State.reg_setReg_of_ne hj s v)

/-- The registers that an instruction may write (10_state.md R11): SP, and its first operand. -/
theorem Completes.reg_changed (h : Completes s i t) {j : Fin 8} (hj : t.reg j ≠ s.reg j) :
    (j = 7 ∧ i.mnemonic ∈ [Mnemonic.push, .pop, .call, .ret]) ∨
      (i.mnemonic ∈ [Mnemonic.ldi, .add, .mul, .pop] ∧ ∃ b, i.operands.head? = some b ∧ b.toNat = j.val) := by
  cases h with
  | ldi hfirst | mul hfirst | add hfirst =>
    obtain rfl := eq_of_setReg_changed hj
    exact .inr ⟨by simp [Instr.mnemonic], _, rfl, hfirst⟩
  | push | call | ret => exact .inl ⟨eq_of_setReg_changed hj, by simp [Instr.mnemonic]⟩
  | pop hfirst =>
    by_cases h7 : j = 7
    · exact .inl ⟨h7, by simp [Instr.mnemonic]⟩
    · rw [State.reg_advance, State.reg_setReg_of_ne h7] at hj
      obtain rfl := eq_of_setReg_changed hj
      exact .inr ⟨by simp [Instr.mnemonic], _, rfl, hfirst⟩
  | jeq | jne => split at hj <;> exact absurd rfl hj
  | _ => exact absurd rfl hj

/-- Settles O46: a fault writes no register, and a completed instruction those of its row. -/
theorem onlyTabledRegistersAreWritten : Obligations.OnlyTabledRegistersAreWritten := by
  intro s t j h hj
  obtain ⟨hrun, ⟨i, hf, hc⟩ | ⟨info, hr, rfl⟩⟩ := step_eq_next.1 h
  · exact ⟨i, hf, hc.reg_changed hj⟩
  · exact absurd rfl hj

/-! ## Reset -/

/-- Settles O1: each field as it stands in `State.reset`, the registers one by one. -/
theorem resetStateIsAsTabled : Obligations.ResetStateIsAsTabled :=
  ⟨by decide, rfl, rfl, rfl, rfl, Memory.read_nil, rfl, rfl⟩

/-- Settles O3: nothing is written, `pc` is 0, and the machine is running. -/
theorem resetMeetsTheInvariant : Obligations.ResetMeetsTheInvariant where
  memory := reset_memory_wf
  pcRange := Nat.zero_le _
  halted := nofun
  faulted := nofun

end Sys2Proof.Machine
end

section
/-! PROOFS. The statements of 20_memory.md: the two accesses, the load, and what a step reads of memory. -/

namespace Sys2Proof.Machine

variable {s t : State} {i : Instr} {info : FaultInfo} {m : Memory}

/-! ## What a step reads of memory (R29, R31) -/

/-- The state with another memory. -/
def State.withMem (s : State) (m : Memory) : State := { s with mem := m }

@[simp] theorem State.withMem_mem (s : State) (m : Memory) : (s.withMem m).mem = m := rfl

/-- The instruction reads the cell at SP as data. -/
def ReadsAtSp (i : Instr) : Prop := i.mnemonic = .pop ∨ i.mnemonic = .ret

/-- The fetch of an instruction reads no cell but the instruction's own. -/
theorem fetchInstr_withMem (hf : fetchInstr s = .ok i)
    (hown : ∀ c, OwnByte s i c → Memory.read m c = Memory.read s.mem c) : fetchInstr (s.withMem m) = .ok i := by
  obtain ⟨hle, hbytes⟩ := bytesAtPc_of_fetchInstr hf
  refine fetchInstr_of_bytesAtPc ⟨hle, fun k hk => ?_⟩
  exact (hown _ ⟨Nat.le_add_right _ k, Nat.add_lt_add_left hk _⟩).trans (hbytes k hk)

/-- Of the faults of an instruction only that of POP depends on memory, on the cell at SP. -/
theorem Raises.withMem (h : Raises s i info)
    (hread : ReadsAtSp i → Memory.read m s.sp.toNat = Memory.read s.mem s.sp.toNat) :
    Raises (s.withMem m) i info := by
  cases h with
  | first h hb => exact .first h hb
  | second h ha hb => exact .second h ha hb
  | push hb hsp => exact .push hb hsp
  | pop hb hsp =>
    rw [← hread (.inl rfl)] at hsp
    exact .pop hb hsp
  | returnAddress hb hpc => exact .returnAddress hb hpc
  | call hb hpc hsp => exact .call hb hpc hsp
  | ret hsp => exact .ret hsp

theorem byte_sub_one_toNat_succ {b : Byte} (h : b ≠ 0) : (b - 1).toNat + 1 = b.toNat := by
  have h0 : b.toNat ≠ 0 := fun e => h (BitVec.eq_of_toNat_eq e)
  rw [byte_sub_one_toNat h]
  omega

/-- With another memory an instruction completes in the same way: it leaves that memory alone, or stores in it the byte
that it stores without the change. -/
theorem Completes.withMem (h : Completes s i t)
    (hread : ReadsAtSp i → Memory.read m s.sp.toNat = Memory.read s.mem s.sp.toNat) :
    (t.mem = s.mem ∧ Completes (s.withMem m) i (t.withMem m)) ∨
      (i.mnemonic ∈ [Mnemonic.push, .call] ∧ s.sp ≠ 0 ∧ ∃ w, t.mem = Memory.write s.mem (s.sp - 1).toNat w ∧
        Completes (s.withMem m) i (t.withMem (Memory.write m (s.sp - 1).toNat w))) := by
  cases h with
  | hlt => exact .inl ⟨rfl, .hlt⟩
  | ldi hb => exact .inl ⟨rfl, .ldi hb⟩
  | prn hb => exact .inl ⟨rfl, .prn hb⟩
  | mul ha hb => exact .inl ⟨rfl, .mul ha hb⟩
  | add ha hb => exact .inl ⟨rfl, .add ha hb⟩
  | push hb hsp => exact .inr ⟨by simp [Instr.mnemonic], hsp, _, rfl, .push hb hsp⟩
  | pop hb hsp =>
    rw [← hread (.inl rfl)] at hsp ⊢
    exact .inl ⟨rfl, .pop hb hsp⟩
  | call hb hpc hsp => exact .inr ⟨by simp [Instr.mnemonic], hsp, _, rfl, .call hb hpc hsp⟩
  | ret hsp =>
    rw [← hread (.inr rfl)]
    exact .inl ⟨rfl, .ret hsp⟩
  | cmp ha hb => exact .inl ⟨rfl, .cmp ha hb⟩
  | jmp hb => exact .inl ⟨rfl, .jmp hb⟩
  | jeq hb =>
    refine .inl ⟨by split <;> rfl, ?_⟩
    rw [apply_ite (State.withMem · m)]; exact .jeq hb
  | jne hb =>
    refine .inl ⟨by split <;> rfl, ?_⟩
    rw [apply_ite (State.withMem · m)]; exact .jne hb

theorem Memory.read_write_congr {m n : Memory} {c : Nat} (h : Memory.read m c = Memory.read n c) (p : Nat) (w : Byte) :
    Memory.read (Memory.write m p w) c = Memory.read (Memory.write n p w) c := by
  rw [Memory.read_write, Memory.read_write, h]

/-- Settles O48: the step fetches the same instruction, which completes or faults in the same way; a byte that it stores
falls on SP - 1, which is the changed cell or another one. -/
theorem unreadCellsDoNotMatter : Obligations.UnreadCellsDoNotMatter := by
  intro s t i a v h hf hown hsp
  have hself : Memory.read (Memory.write s.mem a v) a = v := Memory.read_write_self s.mem a v
  have hother {c : Nat} (hc : c ≠ a) : Memory.read (Memory.write s.mem a v) c = Memory.read s.mem c :=
    Memory.read_write_of_ne hc s.mem v
  have hread (hi : ReadsAtSp i) : Memory.read (Memory.write s.mem a v) s.sp.toNat = Memory.read s.mem s.sp.toNat :=
    hother (Ne.symm (hsp hi))
  have hrun := (step_next h).1
  have hstep : step (s.withMem (Memory.write s.mem a v)) = exec i (s.withMem (Memory.write s.mem a v)) :=
    step_of_fetched hrun (fetchInstr_withMem hf fun c hc => hother fun e => hown (e ▸ hc))
  rw [step_of_fetched hrun hf] at h
  obtain hc | ⟨info, hr, rfl⟩ := exec_next h
  · obtain ⟨hmem, hc'⟩ | ⟨hi, hsp0, w, hmem, hc'⟩ := hc.withMem hread
    · exact ⟨_, hstep.trans (exec_of_completes hc'), rfl, fun c hca => by rw [hmem]; exact hother hca, .inl hself⟩
    · refine ⟨_, hstep.trans (exec_of_completes hc'), rfl, fun c hca => ?_, ?_⟩
      · rw [hmem]; exact Memory.read_write_congr (hother hca) _ w
      · rw [hmem, State.withMem_mem]
        by_cases hap : a = (s.sp - 1).toNat
        · refine .inr ⟨hi, ?_, by rw [hap, Memory.read_write_self, Memory.read_write_self]⟩
          rw [hap, ← State.sp_eq, byte_sub_one_toNat_succ hsp0]
        · exact .inl (by rw [Memory.read_write_of_ne hap, hself])
  · exact ⟨_, hstep.trans (exec_of_raises (hr.withMem hread)), rfl, fun c hca => hother hca, .inl hself⟩

/-! ## The load (R33) -/

/-- Boot answers reset with the image from cell 0 on, for exactly the images that fit. -/
theorem boot_eq_ok {img : List Byte} : boot img = .ok s ↔
    img.length ≤ 256 ∧ s = State.reset.withMem (writeBytes State.reset.mem Config.loadBase img) := by
  unfold boot
  split
  · next h => simp only [h, true_and, Except.ok.injEq]; exact eq_comm
  · next h => simp [h]

theorem boot_eq_error {img : List Byte} {record : FaultRecord} :
    boot img = .error record ↔ 256 < img.length ∧ record = loadRefused := by
  unfold boot
  split
  · next h => simp [h]
  · next h => simp [Nat.lt_of_not_le h, eq_comm]

/-- A cell of a loaded memory: a byte of the image, or 0. -/
theorem read_loaded (img : List Byte) (a : Nat) :
    Memory.read (writeBytes State.reset.mem Config.loadBase img) a = if h : a < img.length then img[a] else 0 := by
  simp [read_writeBytes, State.reset]

/-- Settles O2: an image that fits is read back byte by byte, and a longer one is refused. -/
theorem loadPlacesTheImageOrIsRefused : Obligations.LoadPlacesTheImageOrIsRefused := by
  refine fun img => ⟨fun hfits => ?_, fun hlong => boot_eq_error.2 ⟨hlong, rfl⟩⟩
  refine ⟨_, boot_eq_ok.2 ⟨hfits, rfl⟩, fun a ha => ?_, fun a ha => ?_, rfl, rfl, rfl, rfl, rfl⟩
  · exact (read_loaded img a).trans (dif_pos ha)
  · exact (read_loaded img a).trans (dif_neg (Nat.not_lt_of_le ha))

/-- Settles O4: the image lands in 0..255, so memory is canonical; `pc` is 0, and the machine is running. -/
theorem bootedMachineMeetsTheInvariant : Obligations.BootedMachineMeetsTheInvariant := by
  intro img s h
  obtain ⟨hfits, rfl⟩ := boot_eq_ok.1 h
  exact {
    memory := writeBytes_wf reset_memory_wf (by rwa [Nat.zero_add])
    pcRange := Nat.zero_le _
    halted := nofun
    faulted := nofun }

/-! ## MemRead and MemWrite (R24, R25) -/

theorem inMemory_natCast {n : Nat} (h : n ≤ 255) : inMemory n := ⟨Int.natCast_nonneg n, by omega⟩

theorem not_inMemory_of_outside {addr : Int} (h : addr < 0 ∨ 255 < addr) : ¬ inMemory addr :=
  fun ⟨h0, h255⟩ => by omega

/-- Settles O41: an address of 0..255 is its own cell, and no other is one. -/
theorem memReadNeverWraps : Obligations.MemReadNeverWraps := by
  refine fun s addr access => ⟨?_, fun hout => memRead_eq_error.2 ⟨not_inMemory_of_outside hout, rfl⟩⟩
  rintro n rfl hn
  exact memRead_eq_ok.2 ⟨inMemory_natCast hn, rfl⟩

/-- Settles O42: the write falls on the cell of the address, and outside 0..255 on none. -/
theorem memWriteChangesOneCell : Obligations.MemWriteChangesOneCell := by
  refine fun s addr v access => ⟨?_, fun hout => memWrite_eq_error.2 ⟨not_inMemory_of_outside hout, rfl⟩⟩
  rintro n rfl hn
  refine ⟨_, memWrite_eq_ok.2 ⟨inMemory_natCast hn, rfl⟩, ?_, fun a ha => ?_, rfl⟩
  · exact Memory.read_write_self s.mem n v
  · exact Memory.read_write_of_ne ha s.mem v

end Sys2Proof.Machine
end

section
/-! PROOFS. The statements of 30_encoding.md: the opcode map and the decoder's fields, decoding against encoding and the
refusals, what a step makes of the operand count and of bit 4, and the register operand bytes. -/

namespace Sys2Proof

variable {op : Byte} {m : Mnemonic} {bs rest : List Byte} {i : Instr} {reject : DecodeReject}

/-! ## Decoding a list by its first byte (R41, R50) -/

theorem decode_cons_of_assigned (h : lookup op = some m) (bs : List Byte) :
    decode (op :: bs) = takeOperands m bs := by
  rw [decode, h]

theorem decode_cons_of_unassigned (h : lookup op = none) (bs : List Byte) :
    decode (op :: bs) = .error (.unassigned op) := by
  rw [decode, h]

theorem decode_encode_append (i : Instr) (rest : List Byte) : decode (encode i ++ rest) = .ok (i, rest) :=
  (decode_cons_of_assigned (lookup_opc i.mnemonic) _).trans (takeOperands_operands i rest)

theorem eq_encode_append_of_decode (h : decode bs = .ok (i, rest)) : bs = encode i ++ rest := by
  cases bs with
  | nil => cases h
  | cons op bs =>
    cases hl : lookup op with
    | none => rw [decode_cons_of_unassigned hl] at h; cases h
    | some m =>
      rw [decode_cons_of_assigned hl] at h
      obtain ⟨rfl, rfl⟩ := takeOperands_ok h
      rw [← opc_of_lookup hl]
      rfl

/-- Settles O7: the whole first byte selects the instruction, whose format takes the bytes that the encoder writes. -/
theorem decodeAndEncodeAgree : Obligations.DecodeAndEncodeAgree := by
  refine fun bs rest i => ⟨eq_encode_append_of_decode, ?_⟩
  rintro rfl
  exact decode_encode_append i rest

/-! ## Refusals (R48) -/

theorem takeOne_eq_error {f : Byte → Instr} :
    takeOne f bs = .error reject ↔ bs.length < 1 ∧ reject = .missingOperand := by
  match bs with
  | [] => simp [takeOne, eq_comm]
  | _ :: _ => simp [takeOne]

theorem takeTwo_eq_error {f : Byte → Byte → Instr} :
    takeTwo f bs = .error reject ↔ bs.length < 2 ∧ reject = .missingOperand := by
  match bs with
  | [] | [_] => simp [takeTwo, eq_comm]
  | _ :: _ :: _ => simp [takeTwo]

/-- An operand format refuses only a list shorter than the opcode byte asks for. -/
theorem takeOperands_eq_error :
    takeOperands m bs = .error reject ↔ bs.length < operandCount (opc m) ∧ reject = .missingOperand := by
  cases m with
  | hlt | ret =>
    have hcount : operandCount (opc .hlt) = 0 ∧ operandCount (opc .ret) = 0 := by decide
    simp [takeOperands, takeZero, hcount]
  | ldi | mul | add | cmp => exact takeTwo_eq_error
  | _ => exact takeOne_eq_error

/-- Why the decoder refuses a list with a first byte: that byte is unassigned, or operand bytes are missing. -/
theorem decode_cons_eq_error : decode (op :: bs) = .error reject ↔
    ((∀ m, opc m ≠ op) ∧ reject = .unassigned op) ∨
      ((∃ m, opc m = op) ∧ bs.length < operandCount op ∧ reject = .missingOperand) := by
  cases hl : lookup op with
  | none =>
    have hnone := lookup_eq_none.1 hl
    simp [decode_cons_of_unassigned hl, hnone, eq_comm]
  | some m =>
    have hop : opc m = op := opc_of_lookup hl
    have hsome : ¬ ∀ m, opc m ≠ op := fun h => h m hop
    rw [decode_cons_of_assigned hl, takeOperands_eq_error, hop]
    simp only [hsome, false_and, false_or, show ∃ m, opc m = op from ⟨m, hop⟩, true_and]

/-- Settles O8: the empty list has no opcode, and any other is refused for its first byte or for its length. -/
theorem decoderRefusesByName : Obligations.DecoderRefusesByName := by
  refine ⟨fun bs => ?_, fun op c bs => ?_, fun op bs => ?_⟩
  · cases bs with
    | nil => simp [decode]
    | cons op bs => simp [decode_cons_eq_error]
  · simp [decode_cons_eq_error]
  · simp [decode_cons_eq_error]

/-! ## The opcode map and the fields of a byte (R40, R45, R46) -/

theorem opc_injective {m n : Mnemonic} (h : opc m = opc n) : m = n := by
  have hl : lookup (opc m) = lookup (opc n) := congrArg lookup h
  simpa using hl

theorem operandCount_opc_eq (m : Mnemonic) : operandCount (opc m) =
    if m ∈ [Mnemonic.hlt, .ret] then 0 else if m ∈ [Mnemonic.ldi, .mul, .add, .cmp] then 2 else 1 := by
  cases m <;> decide

theorem setsPcDirectly_opc (m : Mnemonic) :
    (decodeFields (opc m)).setsPcDirectly = true ↔ m ∈ [Mnemonic.call, .ret, .jmp, .jeq, .jne] := by
  cases m <;> decide

/-- Settles O9: `lookup` undoes `opc`, so its values are different; counts and bit 4 are read off the table. -/
theorem opcodeMapMeetsItsConstraints : Obligations.OpcodeMapMeetsItsConstraints :=
  ⟨fun _ _ => opc_injective, operandCount_opc_eq, setsPcDirectly_opc⟩

theorem operandCount_eq_div (op : Byte) : operandCount op = op.toNat / 64 := by
  have := op.isLt
  simp only [operandCount, decodeFields, BitVec.extractLsb'_toNat, Nat.shiftRight_eq_div_pow]
  omega

theorem getLsbD_eq_true_iff (b : Byte) (k : Nat) : b.getLsbD k = true ↔ b.toNat / 2 ^ k % 2 = 1 := by
  rw [BitVec.getLsbD, Nat.testBit_eq_decide_div_mod_eq, decide_eq_true_iff]

theorem instructionId_toNat (op : Byte) : (decodeFields op).instructionId.toNat = op.toNat % 16 := by
  simp [decodeFields, BitVec.extractLsb'_toNat]

theorem lookup_of_operandCount_three (h : operandCount op = 3) : lookup op = none := by
  refine lookup_eq_none.2 fun m hm => ?_
  rw [← hm, operandCount_opc_eq] at h
  split_ifs at h <;> omega

/-- Settles O10: each field is a quotient and remainder of the byte, and no opcode asks for three operand bytes. -/
theorem decoderFieldsAreTheBitMasks : Obligations.DecoderFieldsAreTheBitMasks := fun op =>
  ⟨operandCount_eq_div op, congrArg (· + 1) (operandCount_eq_div op), getLsbD_eq_true_iff op 5,
    getLsbD_eq_true_iff op 4, instructionId_toNat op, lookup_of_operandCount_three⟩

/-- Settles O11: each word is the encoding of its instruction, and 0 is no opcode. -/
theorem wordsDecodeAsTabled : Obligations.WordsDecodeAsTabled :=
  ⟨decode_encode_append .hlt [], decode_encode_append (.ldi 3 8) [], decode_encode_append (.prn 3) [],
    decode_encode_append (.mul 0 1) [], decode_encode_append (.add 0 1) [], decode_encode_append (.push 7) [],
    decode_encode_append (.call 1) [], decode_encode_append .ret [], decode_encode_append (.cmp 5 6) [],
    decode_encode_append (.jeq 2) [], decode_cons_of_unassigned (by decide) []⟩

end Sys2Proof

namespace Sys2Proof.Machine

variable {s t : State} {i : Instr}

/-! ## Operand bytes and the advance of `pc` (R47) -/

theorem fetchBytes_of_fetchInstr (h : fetchInstr s = .ok i) : fetchBytes s = .ok (encode i) := by
  cases hb : fetchBytes s with
  | error info => simp [fetchInstr, hb] at h
  | ok bs =>
    obtain ⟨j, hj, rfl⟩ := fetchInstr_of_fetchBytes hb
    rw [Except.ok.inj (h.symm.trans hj)]

/-- The byte at `pc` is the opcode byte of the instruction lying there. -/
theorem byteAtPc_eq_opcodeOf (h : BytesAtPc s (encode i)) : byteAtPc s = opcodeOf i :=
  lookup_eq_some.1 (lookup_byteAtPc h)

/-- A completed instruction whose bit 4 is clear moves `pc` by its length (R59). -/
theorem Completes.pc_of_bit4_clear (h : Completes s i t) (hl : s.pc.toNat + (encode i).length ≤ 256)
    (hclear : (decodeFields (opcodeOf i)).setsPcDirectly = false) :
    t.pc.toNat = s.pc.toNat + (encode i).length := by
  have hdirect : i.mnemonic ∉ [Mnemonic.call, .ret, .jmp, .jeq, .jne] := fun hm => by
    rw [opcodeOf, (setsPcDirectly_opc _).2 hm] at hclear; cases hclear
  have advance (u : State) (hu : u.pc = s.pc) :
      (u.advance (encode i).length).pc.toNat = s.pc.toNat + (encode i).length := by
    rw [← hu] at hl ⊢; exact advance_pc_toNat hl
  cases h with
  | call | ret | jmp | jeq | jne => exact absurd (by simp [Instr.mnemonic]) hdirect
  | _ => exact advance _ rfl

/-- Settles O14: the bytes fetched are the encoding, which lies at `pc`; a step that raises nothing completes. -/
theorem stepReadsItsOperandsAndAdvances : Obligations.StepReadsItsOperandsAndAdvances := by
  intro s t i hf
  have hat := bytesAtPc_of_fetchInstr hf
  have hop := byteAtPc_eq_opcodeOf hat
  have hcount : i.operands.length = operandCount (byteAtPc s) := by rw [hop]; exact (operandCount_opc i).symm
  refine ⟨fetchBytes_of_fetchInstr hf, hcount, fun k hk => ?_, fun hstep hok hclear => ?_⟩
  · rw [Nat.add_assoc, Nat.add_comm 1 k]
    exact (hat.2 (k + 1) (Nat.succ_lt_succ hk)).symm
  · rw [step_of_fetched (step_next hstep).1 hf] at hstep
    obtain hc | ⟨info, -, rfl⟩ := exec_next hstep
    · rw [hop] at hclear
      rw [hc.pc_of_bit4_clear hat.1 hclear, encode_length, hcount, Nat.add_assoc]
    · exact absurd rfl (hok (s.faultRecord info))

/-! ## Register operand bytes above 7 (R43) -/

/-- Settles O22: the register operand bytes are looked at before anything else, in their order. -/
theorem invalidRegisterOperandFaults : Obligations.InvalidRegisterOperandFaults := fun _ _ =>
  ⟨fun _ => exec_of_first_operand_illegal, fun _ _ => exec_of_second_operand_illegal⟩

end Sys2Proof.Machine
end

section
/-! PROOFS. The statements of 40_cycle_and_system.md: what a step makes of the bytes at `pc` and of the run status, then
HLT, PRN and the text of an emission. -/

namespace Sys2Proof.Machine

variable {s : State} {i : Instr} {bs rest : List Byte} {nbits w : Nat}

/-! ## A step runs the instruction at `pc` (R54, R58) -/

/-- Settles O12: the bytes at `pc` are what is fetched, and `step` passes the instruction to `exec`. -/
theorem stepRunsTheDecodedInstruction : Obligations.StepRunsTheDecodedInstruction := fun _ _ hrun hat =>
  step_of_fetched hrun (fetchInstr_of_bytesAtPc hat)

theorem placeBytes_pc_toNat (s : State) (bs : List Byte) : (placeBytes s bs).pc.toNat = placeAddress s := by
  have hfits := placeAddress_fits s
  exact Nat.mod_eq_of_lt (by omega)

/-- Up to three bytes fit where they are placed, so what they begin with lies at the new `pc`. -/
theorem bytesAtPc_placeBytes (s : State) (h : (bs ++ rest).length ≤ 3) :
    BytesAtPc (placeBytes s (bs ++ rest)) bs := by
  have hfits := placeAddress_fits s
  rw [List.length_append] at h
  rw [BytesAtPc, placeBytes_pc_toNat]
  refine ⟨by omega, fun k hk => ?_⟩
  have hin : placeAddress s ≤ placeAddress s + k ∧
      placeAddress s + k < placeAddress s + (bs ++ rest).length := by
    rw [List.length_append]; omega
  refine (read_writeBytes s.mem (placeAddress s) (bs ++ rest) _).trans ((dif_pos hin).trans ?_)
  simp only [Nat.add_sub_cancel_left, List.getElem_append_left hk]

/-- The bytes of a word that decodes to `i` begin with the encoding of `i`. -/
theorem tableBytes_eq_encode_append (h : decodeTableWord nbits w = some i) :
    ∃ rest, tableBytes nbits w = encode i ++ rest := by
  unfold decodeTableWord at h
  split at h
  · next j rest hd => exact ⟨rest, Option.some.inj h ▸ eq_encode_append_of_decode hd⟩
  · cases h

/-- Settles O13: the three bytes of the word fit where they are placed, the instruction's own come first, and the
machine they are placed in is running. -/
theorem placedWordIsRunNext : Obligations.PlacedWordIsRunNext := by
  intro s nbits w i h
  obtain ⟨rest, hbytes⟩ := tableBytes_eq_encode_append h
  have hlen : (tableBytes nbits w).length ≤ 3 := Nat.le_refl 3
  have hat : BytesAtPc (s.withFetchWord nbits w) (encode i) := by
    rw [State.withFetchWord, hbytes]
    exact bytesAtPc_placeBytes s (hbytes ▸ hlen)
  exact stepRunsTheDecodedInstruction _ i rfl hat

/-! ## The fetch past the end of memory (R55, R57) -/

/-- Where no instruction lies at `pc`, a running machine raises the fault of its fetch. -/
theorem step_of_no_instruction (hrun : s.run = .running) (hno : ∀ i, ¬ BytesAtPc s (encode i)) :
    ∃ info, fetchInstr s = .error info ∧ step s = .next (raise s info) := by
  cases hf : fetchInstr s with
  | ok i => exact absurd (bytesAtPc_of_fetchInstr hf) (hno i)
  | error info => exact ⟨info, rfl, step_of_fetch_fault hrun hf⟩

/-- Settles O15: no instruction fits at 256, and of the three fetch faults only that of the opcode fetch occurs there. -/
theorem fetchPastMemoryFaults : Obligations.FetchPastMemoryFaults := by
  intro s hrun hpc
  have hno (i : Instr) : ¬ BytesAtPc s (encode i) := fun hat => by
    have hle := hat.1
    rw [encode_length] at hle
    omega
  obtain ⟨info, hf, hstep⟩ := step_of_no_instruction hrun hno
  obtain ⟨-, rfl⟩ | ⟨h255, -⟩ | ⟨h255, -⟩ := fetchInstr_error hf
  · rw [hpc] at hstep; exact hstep
  · omega
  · omega

/-- Settles O17: an instruction with that opcode byte would end past 255, so none lies at `pc`; the fault is the
operands' because `pc` is in memory and the opcode is assigned. -/
theorem operandPastMemoryFaults : Obligations.OperandPastMemoryFaults := by
  rintro s hrun hpc ⟨m, hm⟩ hlong
  have hno (i : Instr) : ¬ BytesAtPc s (encode i) := fun hat => by
    have hle := hat.1
    rw [byteAtPc_eq_opcodeOf hat, opcodeOf, operandCount_opc] at hlong
    rw [encode_length] at hle
    omega
  obtain ⟨info, hf, hstep⟩ := step_of_no_instruction hrun hno
  obtain ⟨h255, -⟩ | ⟨-, hnone, -⟩ | ⟨-, -, -, rfl⟩ := fetchInstr_error hf
  · omega
  · exact absurd hm (lookup_eq_none.1 hnone m)
  · exact hstep

/-! ## Which machines have a step (R60) -/

theorem step_answers_of_running (hrun : s.run = .running) : ∃ t, step s = .next t := by
  cases hf : fetchInstr s with
  | ok i => rw [step_of_fetched hrun hf]; exact exec_answers i s
  | error info => exact ⟨_, step_of_fetch_fault hrun hf⟩

theorem step_of_halted (h : s.run = .halted) : step s = .fault .haltedHasNoStep := by
  rw [step, h]

theorem step_of_faulted {record : FaultRecord} (h : s.run = .faulted record) :
    step s = .fault (.faultedHasNoStep record) := by
  rw [step, h]

/-- Settles O18: every fetch and every instruction of a running machine answers, and no other machine has a step. -/
theorem exactlyRunningMachinesStep : Obligations.ExactlyRunningMachinesStep := fun _ =>
  ⟨⟨fun ⟨_, h⟩ => (step_next h).1, step_answers_of_running⟩, step_of_halted, fun _ => step_of_faulted⟩

/-! ## HLT and PRN (R61, R62) -/

/-- Settles O28: HLT writes `run` and `pc` alone, and with room for its byte the sum of `pc` is not reduced. -/
theorem hltHaltsAndChangesNothingElse : Obligations.HltHaltsAndChangesNothingElse := fun s hpc =>
  have hadvance : ((s.setRun .halted).advance 1).pc.toNat = s.pc.toNat + 1 := advance_pc_toNat hpc
  ⟨_, exec_hlt_eq, rfl, hadvance, fun _ => rfl, fun _ => rfl, rfl, rfl⟩

/-- Settles O30: PRN writes `out` and `pc` alone, and with room for its bytes the sum of `pc` is not reduced. -/
theorem prnEmitsItsRegister : Obligations.PrnEmitsItsRegister := fun s _ r hb hpc =>
  have hadvance : ((s.emit (s.reg r)).advance 2).pc.toNat = s.pc.toNat + 2 := advance_pc_toNat hpc
  ⟨_, exec_prn_eq hb, rfl, fun _ => rfl, hadvance, fun _ => rfl, rfl, rfl⟩

/-! ## The text of an emission (R63) -/

/-- The numeral of a byte has three digits, two or one, and where it has more than one the first is not 0. -/
theorem decimalDigits_cases (v : Byte) :
    (∃ a b c, decimalDigits v = [a, b, c] ∧ v.toNat = 100 * a + 10 * b + c ∧ 1 ≤ a ∧ a ≤ 9 ∧ b ≤ 9 ∧ c ≤ 9) ∨
      (∃ b c, decimalDigits v = [b, c] ∧ v.toNat = 10 * b + c ∧ 1 ≤ b ∧ b ≤ 9 ∧ c ≤ 9) ∨
      (decimalDigits v = [v.toNat] ∧ v.toNat ≤ 9) := by
  have hv := byte_toNat_le v
  unfold decimalDigits
  split_ifs with h100 h10
  · exact .inl ⟨_, _, _, rfl, by omega, by omega, by omega, by omega, by omega⟩
  · exact .inr (.inl ⟨_, _, rfl, by omega, by omega, by omega, by omega⟩)
  · exact .inr (.inr ⟨rfl, by omega⟩)

/-- Settles O53: the numeral by the number of its digits. -/
theorem emissionIsTheShortestNumeral : Obligations.EmissionIsTheShortestNumeral := by
  refine fun v => ⟨rfl, ?_⟩
  obtain ⟨a, b, c, hd, hv, h1, ha, hb, hc⟩ | ⟨b, c, hd, hv, h1, hb, hc⟩ | ⟨hd, hv⟩ := decimalDigits_cases v
  · rw [hd]
    refine ⟨?_, by simp [ha, hb, hc], fun h0 => ?_, Nat.le_refl 3⟩
    · simp only [List.foldl_cons, List.foldl_nil]; omega
    · have : a = 0 := Option.some.inj h0
      omega
  · rw [hd]
    refine ⟨?_, by simp [hb, hc], fun h0 => ?_, Nat.le_succ 2⟩
    · simp only [List.foldl_cons, List.foldl_nil]; omega
    · have : b = 0 := Option.some.inj h0
      omega
  · rw [hd]
    refine ⟨?_, by simpa using hv, fun h0 => ?_, Nat.le_add_left 1 2⟩
    · simp only [List.foldl_cons, List.foldl_nil]; omega
    · rw [Option.some.inj h0]

end Sys2Proof.Machine
end

section
/-! PROOFS. The statements of 41_load_immediate.md: what LDI writes, and the stack where LDI into register 7 puts it. -/

namespace Sys2Proof.Machine

variable {s : State} {b : Byte} {r : Fin 8}

/-! ## LDI (R64) -/

/-- Settles O29: LDI writes its register and `pc` alone, and with room for its bytes the sum of `pc` is not reduced. -/
theorem ldiLoadsItsImmediate : Obligations.LdiLoadsItsImmediate := fun s _ imm r hb hpc =>
  have hadvance : ((s.setReg r imm).advance 3).pc.toNat = s.pc.toNat + 3 := advance_pc_toNat hpc
  ⟨_, exec_ldi_eq hb, State.reg_setReg_self s r imm, fun _ hj => State.reg_setReg_of_ne hj s imm, hadvance,
    fun _ => rfl, rfl, rfl, rfl⟩

/-! ## PUSH and POP of a register other than SP, by the cell they use (R75, R76) -/

/-- The byte of a push stands in the cell below the stack. -/
theorem read_pushed (hsp : s.sp ≠ 0) (v : Byte) : Memory.read (pushed s v).mem (s.sp.toNat - 1) = v := by
  rw [pushed_mem, byte_sub_one_toNat hsp, Memory.read_write_self]

theorem exec_push_stores_reg (hb : b.toNat = r.val) (hr : r ≠ 7) (hsp : s.sp ≠ 0) :
    ∃ u, exec (.push b) s = .next u ∧ Memory.read u.mem (s.sp.toNat - 1) = s.reg r :=
  ⟨_, exec_push_eq hb hsp, (read_pushed hsp _).trans (State.reg_setReg_of_ne hr s _)⟩

theorem exec_pop_loads_cell (hb : b.toNat = r.val) (hr : r ≠ 7) (hsp : s.sp ≠ 255) :
    ∃ u, exec (.pop b) s = .next u ∧ u.reg r = Memory.read s.mem s.sp.toNat := by
  have hsp' : (s.setReg r (Memory.read s.mem s.sp.toNat)).sp ≠ 255 := by rwa [sp_after_load, if_neg hr]
  exact ⟨_, exec_pop_eq hb hsp', (State.reg_setReg_of_ne hr _ _).trans (State.reg_setReg_self s r _)⟩

/-! ## LDI into register 7 (R65) -/

/-- Settles O52: after the LDI the stack pointer is `v`, and neither memory nor the register `r` has changed, so the
PUSH stores the old `r` below `v` and the POP loads the old cell `v`. -/
theorem ldiIntoSevenMovesTheStack : Obligations.LdiIntoSevenMovesTheStack := by
  intro s v b r hb hr
  have hsp : ((s.setReg 7 v).advance 3).sp = v := State.reg_setReg_self s 7 v
  have hreg : ((s.setReg 7 v).advance 3).reg r = s.reg r := State.reg_setReg_of_ne hr s v
  refine ⟨_, exec_ldi_eq (r := 7) rfl, hsp, fun h0 => ?_, fun h255 => ?_⟩
  · simpa only [hsp, hreg] using exec_push_stores_reg hb hr (hsp.trans_ne h0)
  · simpa only [hsp, State.advance_mem, State.setReg_mem] using exec_pop_loads_cell hb hr (hsp.trans_ne h255)

end Sys2Proof.Machine
end

section
/-! PROOFS. The statements of 42_alu.md: the results of the three ALU operations as arithmetic of unsigned bytes, then
what ADD, MUL and CMP write. -/

namespace Sys2Proof.Machine

variable {s : State} {i : Instr} {r : Fin 8} {v : Byte}

/-! ## The three operations on two bytes (R67 to R70) -/

theorem aluAdd_toNat (u v : Byte) : (aluAdd u v).toNat = (u.toNat + v.toNat) % 256 := BitVec.toNat_ofNat _ 8

theorem aluMul_toNat (u v : Byte) : (aluMul u v).toNat = (u.toNat * v.toNat) % 256 := BitVec.toNat_ofNat _ 8

theorem aluAdd_comm (u v : Byte) : aluAdd u v = aluAdd v u := congrArg (BitVec.ofNat 8) (Nat.add_comm _ _)

theorem aluMul_comm (u v : Byte) : aluMul u v = aluMul v u := congrArg (BitVec.ofNat 8) (Nat.mul_comm _ _)

theorem compareFlags_e (u v : Byte) : (compareFlags u v).e = true ↔ u.toNat = v.toNat :=
  decide_eq_true_iff.trans BitVec.toNat_eq

theorem compareFlags_l (u v : Byte) : (compareFlags u v).l = true ↔ u.toNat < v.toNat :=
  decide_eq_true_iff.trans BitVec.lt_def

theorem compareFlags_g (u v : Byte) : (compareFlags u v).g = true ↔ v.toNat < u.toNat :=
  decide_eq_true_iff.trans BitVec.lt_def

/-- The order of bytes is total, and its three cases exclude each other. -/
theorem compareFlags_one_set (u v : Byte) :
    [(compareFlags u v).e, (compareFlags u v).l, (compareFlags u v).g].count true = 1 := by
  simp only [compareFlags, BitVec.toNat_eq, BitVec.lt_def]
  obtain hlt | heq | hgt := Nat.lt_trichotomy u.toNat v.toNat
  · simp [hlt, hlt.ne, hlt.le]
  · simp [heq]
  · simp [hgt, hgt.ne', hgt.le]

/-! ## CMP (R69) -/

/-- Settles O33: CMP writes the flags of the comparison and `pc` alone, and with room for its bytes the sum of `pc` is
not reduced. -/
theorem cmpWritesAllThreeFlags : Obligations.CmpWritesAllThreeFlags := fun s _ _ ra rb ha hb hpc =>
  have hadvance : ((s.setFlags (compareFlags (s.reg ra) (s.reg rb))).advance 3).pc.toNat = s.pc.toNat + 3 :=
    advance_pc_toNat hpc
  ⟨_, exec_cmp_eq ha hb, compareFlags_e _ _, compareFlags_l _ _, compareFlags_g _ _, compareFlags_one_set _ _,
    fun _ => rfl, hadvance, fun _ => rfl, rfl, rfl⟩

/-! ## ADD and MUL (R66 to R68, R71) -/

/-- An instruction that stores into one register and advances by 3 writes that register and `pc` alone. -/
theorem exec_frame_of_stores {n : Nat} (h : exec i s = .next ((s.setReg r v).advance 3)) (hv : v.toNat = n)
    (hpc : s.pc.toNat + 3 ≤ 256) :
    ∃ t, exec i s = .next t ∧ (t.reg r).toNat = n ∧ (∀ j, j ≠ r → t.reg j = s.reg j) ∧
      t.pc.toNat = s.pc.toNat + 3 ∧ (∀ c, Memory.read t.mem c = Memory.read s.mem c) ∧ t.flags = s.flags ∧
      t.run = s.run ∧ t.out = s.out :=
  have hreg : (((s.setReg r v).advance 3).reg r).toNat = n := by simpa using hv
  have hadvance : ((s.setReg r v).advance 3).pc.toNat = s.pc.toNat + 3 := advance_pc_toNat hpc
  ⟨_, h, hreg, fun _ hj => State.reg_setReg_of_ne hj s v, hadvance, fun _ => rfl, rfl, rfl, rfl⟩

/-- Settles O31: ADD stores the sum's low 8 bits. -/
theorem addWrapsAndWritesNoFlag : Obligations.AddWrapsAndWritesNoFlag := fun _ _ _ _ _ ha hb =>
  exec_frame_of_stores (exec_add_eq ha hb) (aluAdd_toNat _ _)

/-- Settles O32: MUL stores the product's low 8 bits. -/
theorem mulWrapsAndWritesNoFlag : Obligations.MulWrapsAndWritesNoFlag := fun _ _ _ _ _ ha hb =>
  exec_frame_of_stores (exec_mul_eq ha hb) (aluMul_toNat _ _)

/-- A commutative operation stores the same byte in the first register as, swapped, in the second. -/
theorem reg_stored_comm {op : Byte → Byte → Byte} (hop : ∀ u v, op u v = op v u) (s : State) (ra rb : Fin 8) :
    ((s.setReg ra (op (s.reg ra) (s.reg rb))).advance 3).reg ra =
      ((s.setReg rb (op (s.reg rb) (s.reg ra))).advance 3).reg rb := by
  simp only [State.reg_advance, State.reg_setReg_self]
  exact hop _ _

/-- Settles O49: both operations are commutative on bytes. -/
theorem addAndMulCommute : Obligations.AddAndMulCommute := fun s _ _ ra rb ha hb =>
  ⟨⟨_, _, exec_add_eq ha hb, exec_add_eq hb ha, reg_stored_comm aluAdd_comm s ra rb⟩,
    ⟨_, _, exec_mul_eq ha hb, exec_mul_eq hb ha, reg_stored_comm aluMul_comm s ra rb⟩⟩

end Sys2Proof.Machine
end

section
/-! PROOFS. The statements of 43_stack.md: what PUSH and POP write, their round trip, and the faults at the two ends of
the stack. -/

namespace Sys2Proof.Machine

variable {s : State} {b : Byte} {r : Fin 8}

/-! ## PUSH (R75) -/

/-- A push leaves every cell but the one below the stack. -/
theorem read_pushed_of_ne (hsp : s.sp ≠ 0) {a : Nat} (ha : a ≠ s.sp.toNat - 1) (v : Byte) :
    Memory.read (pushed s v).mem a = Memory.read s.mem a := by
  rw [← byte_sub_one_toNat hsp] at ha
  exact Memory.read_write_of_ne ha s.mem v

/-- The effect of PUSH of register `r` (`exec_push_eq`). -/
def afterPush (s : State) (r : Fin 8) : State := (pushed s ((s.setReg 7 (s.sp - 1)).reg r)).advance 2

theorem sp_afterPush (s : State) (r : Fin 8) : (afterPush s r).sp = s.sp - 1 := State.reg_setReg_self s 7 _

theorem afterPush_pc_toNat (hpc : s.pc.toNat + 2 ≤ 256) (r : Fin 8) : (afterPush s r).pc.toNat = s.pc.toNat + 2 :=
  advance_pc_toNat (s := pushed s _) hpc

/-- Settles O34: the stored byte is the register as it stands after the update of SP, and with room for its bytes the
sum of `pc` is not reduced. -/
theorem pushStoresBelowTheStack : Obligations.PushStoresBelowTheStack := fun s _ r hb hsp hpc =>
  have hsp' : (afterPush s r).sp.toNat = s.sp.toNat - 1 := by rw [sp_afterPush, byte_sub_one_toNat (b := s.sp) hsp]
  ⟨afterPush s r, exec_push_eq hb hsp, hsp', fun _ hj => State.reg_setReg_of_ne hj s _,
    (read_pushed hsp _).trans (State.reg_setReg s 7 r _), fun _ ha => read_pushed_of_ne hsp ha _,
    afterPush_pc_toNat hpc r, rfl, rfl, rfl⟩

/-! ## POP (R76) -/

/-- Settles O35: POP writes its register and SP, the increment seeing the load, and with room for its bytes the sum of
`pc` is not reduced. -/
theorem popLoadsFromTheStack : Obligations.PopLoadsFromTheStack := by
  intro s b r hb hpc hsp
  have hload : _ = if r = 7 then Memory.read s.mem (s.reg 7).toNat else s.reg 7 := sp_after_load s r
  rw [← hload] at hsp ⊢
  refine ⟨_, exec_pop_eq hb hsp, fun hr => ?_, ?_, fun j hjr hj7 => ?_, fun _ => rfl, ?_, rfl, rfl, rfl⟩
  · exact (State.reg_setReg_of_ne hr _ _).trans (State.reg_setReg_self s r _)
  · rw [State.reg_advance, State.reg_setReg_self, byte_add_one_toNat hsp]
  · exact (State.reg_setReg_of_ne hj7 _ _).trans (State.reg_setReg_of_ne hjr s _)
  · exact advance_pc_toNat (s := (s.setReg r _).setReg 7 _) hpc

/-! ## The round trip (R77) -/

theorem State.setReg_reg_self (s : State) (r : Fin 8) : s.setReg r (s.reg r) = s :=
  have hreg (j : Fin 8) : (s.setReg r (s.reg r)).reg j = s.reg j := by
    rw [State.reg_setReg, ite_eq_right_iff]
    rintro rfl; rfl
  State.ext_reg rfl hreg rfl rfl rfl rfl

/-- A POP that finds the register's own byte at SP changes nothing but SP and `pc`. -/
theorem exec_pop_of_reg_at_sp (hb : b.toNat = r.val) (hread : Memory.read s.mem s.sp.toNat = s.reg r)
    (hsp : s.sp ≠ 255) : exec (.pop b) s = .next ((s.setReg 7 (s.sp + 1)).advance 2) := by
  have hload : s.setReg r (Memory.read s.mem s.sp.toNat) = s := by rw [hread, State.setReg_reg_self]
  have hpop := exec_pop_eq (s := s) hb
  rw [hload] at hpop
  exact hpop hsp

theorem sp_afterPush_add_one (s : State) (r : Fin 8) : (afterPush s r).sp + 1 = s.sp := by
  rw [sp_afterPush, BitVec.sub_add_cancel]

/-- The byte that PUSH stores is the register as PUSH leaves it, register 7 included. -/
theorem read_afterPush_sp (hsp : s.sp ≠ 0) (r : Fin 8) :
    Memory.read (afterPush s r).mem (afterPush s r).sp.toNat = (afterPush s r).reg r := by
  rw [sp_afterPush, byte_sub_one_toNat hsp]
  exact read_pushed hsp _

/-- Settles O50: the load of the POP finds the register's own byte, and its increment takes back the decrement of SP. -/
theorem pushThenPopRestores : Obligations.PushThenPopRestores := by
  intro s b r hb hsp hpc
  have hroom : (afterPush s r).sp ≠ 255 := fun h => hsp (by
    rw [← State.sp_eq, ← sp_afterPush_add_one s r, h]; rfl)
  have hpop : exec (.pop b) (afterPush s r) = .next (((afterPush s r).setReg 7 s.sp).advance 2) := by
    rw [exec_pop_of_reg_at_sp hb (read_afterPush_sp hsp r) hroom, sp_afterPush_add_one]
  have hpushPc : (afterPush s r).pc.toNat = s.pc.toNat + 2 := afterPush_pc_toNat (by omega) r
  have hpopPc : (((afterPush s r).setReg 7 s.sp).advance 2).pc.toNat = (afterPush s r).pc.toNat + 2 :=
    advance_pc_toNat (by rw [State.setReg_pc]; omega)
  refine ⟨_, _, exec_push_eq hb hsp, hpop, fun j => ?_, by omega, fun _ ha => read_pushed_of_ne hsp ha _,
    rfl, rfl, rfl⟩
  by_cases hj : j = 7
  · subst hj
    exact State.reg_setReg_self _ 7 s.sp
  · exact (State.reg_setReg_of_ne hj _ _).trans (State.reg_setReg_of_ne hj s _)

/-! ## The two ends of the stack (R75, R76, R80, R81) -/

/-- Settles O23: at SP = 0 the decrement is refused, in PUSH and in a CALL whose return address fits. -/
theorem pushAndCallFaultAtSpZero : Obligations.PushAndCallFaultAtSpZero := fun _ _ r hb hsp =>
  have hlegal := hb.trans_le r.is_le
  ⟨exec_of_raises (.push hlegal hsp), fun hpc => exec_of_raises (.call hlegal hpc hsp)⟩

/-- Settles O24: the increment is refused at 255, in POP after its load and in RET at the old SP. -/
theorem popAndRetFaultPastTheTop : Obligations.PopAndRetFaultPastTheTop := fun s _ r hb =>
  ⟨fun hsp => exec_of_raises (.pop hb ((sp_after_load s r).trans hsp)), fun hsp => exec_of_raises (.ret hsp)⟩

end Sys2Proof.Machine
end

section
/-! PROOFS. The statements of 44_control_transfer.md: what CALL leaves for RET and the way back, then the jumps. -/

namespace Sys2Proof.Machine

variable {s : State} {i : Instr} {r : Fin 8}

/-! ## CALL (R80) -/

/-- The effect of CALL of register `r` (`exec_call_eq`). -/
def afterCall (s : State) (r : Fin 8) : State :=
  (pushed s (BitVec.ofNat 8 (s.pc.toNat + 2))).setPc (zextPc ((s.setReg 7 (s.sp - 1)).reg r))

theorem sp_afterCall (s : State) (r : Fin 8) : (afterCall s r).sp = s.sp - 1 := State.reg_setReg_self s 7 _

theorem afterCall_pc_toNat (s : State) (r : Fin 8) :
    (afterCall s r).pc.toNat = (if r = 7 then s.sp - 1 else s.reg r).toNat := by
  rw [← State.reg_setReg]
  exact zextPc_toNat _

/-- The cell below the old stack holds the return address, which is not reduced where it fits a byte. -/
theorem read_afterCall_toNat (hsp : s.sp ≠ 0) (hpc : s.pc.toNat + 2 ≤ 255) (r : Fin 8) :
    (Memory.read (afterCall s r).mem (s.sp.toNat - 1)).toNat = s.pc.toNat + 2 :=
  calc _ = (BitVec.ofNat 8 (s.pc.toNat + 2)).toNat := congrArg BitVec.toNat (read_pushed hsp _)
    _ = (s.pc.toNat + 2) % 256 := BitVec.toNat_ofNat _ 8
    _ = s.pc.toNat + 2 := Nat.mod_eq_of_lt (by omega)

/-- Settles O36: CALL pushes the return address, and its target is the register as it stands after the update of SP. -/
theorem callPushesTheReturnAddress : Obligations.CallPushesTheReturnAddress := fun s _ r hb hsp hpc =>
  have hsp' : (afterCall s r).sp.toNat = s.sp.toNat - 1 := by rw [sp_afterCall, byte_sub_one_toNat (b := s.sp) hsp]
  ⟨afterCall s r, exec_call_eq hb hsp hpc, hsp', fun _ hj => State.reg_setReg_of_ne hj s _,
    read_afterCall_toNat hsp hpc r, fun _ ha => read_pushed_of_ne hsp ha _, afterCall_pc_toNat s r, rfl, rfl, rfl⟩

/-- Settles O25: the return address is refused before SP is looked at. -/
theorem callAtTheEndFaults : Obligations.CallAtTheEndFaults := fun _ _ r hb hpc =>
  exec_of_raises (.returnAddress (hb.trans_le r.is_le) (by omega))

/-! ## RET (R81) -/

/-- Settles O37: RET writes `pc` and SP alone, and below 255 the increment of SP is not reduced. -/
theorem retPopsTheProgramCounter : Obligations.RetPopsTheProgramCounter := fun s hsp =>
  have hsp' : ((s.setReg 7 (s.sp + 1)).reg 7).toNat = s.sp.toNat + 1 := by
    rw [State.reg_setReg_self, byte_add_one_toNat (b := s.sp) hsp]
  ⟨_, exec_ret_eq hsp, zextPc_toNat _, hsp', fun _ hj => State.reg_setReg_of_ne hj s _, fun _ => rfl, rfl, rfl, rfl⟩

/-! ## The way back (R85) -/

/-- Settles O51: the byte that RET reads is the return address that CALL stored, and its increment takes back the
decrement of SP. -/
theorem callThenReturnComesBack : Obligations.CallThenReturnComesBack := by
  intro s v b r hb (hsp : s.sp ≠ 0) hpc
  refine ⟨afterCall s r, exec_call_eq hb hsp hpc, fun (hspv : v.sp = (afterCall s r).sp) hcell => ?_⟩
  rw [sp_afterCall] at hspv
  have hback : v.sp + 1 = s.sp := by rw [hspv, BitVec.sub_add_cancel]
  have hroom : v.sp ≠ 255 := fun h => hsp (by rw [← hback, h]; rfl)
  have hread : (Memory.read v.mem v.sp.toNat).toNat = s.pc.toNat + 2 := by
    rw [State.sp_eq v, hcell, ← State.sp_eq, sp_afterCall, byte_sub_one_toNat hsp, read_afterCall_toNat hsp hpc]
  exact ⟨_, exec_ret_eq hroom, (zextPc_toNat _).trans hread, (State.reg_setReg_self v 7 _).trans hback⟩

/-! ## JMP, JEQ and JNE (R82 to R84) -/

/-- Settles O38: JMP writes `pc` alone. -/
theorem jmpTakesItsTargetFromTheRegister : Obligations.JmpTakesItsTargetFromTheRegister := fun _ _ _ hb =>
  ⟨_, exec_jmp_eq hb, zextPc_toNat _, fun _ => rfl, fun _ => rfl, rfl, rfl, rfl⟩

/-- A jump taken on the value `e` of the flag E writes `pc` alone, on both values; with room for its bytes the sum of
`pc` is not reduced where it is not taken. -/
theorem exec_frame_of_branches {e : Bool}
    (h : exec i s = .next (if s.flags.e = e then s.setPc (zextPc (s.reg r)) else s.advance 2))
    (hpc : s.pc.toNat + 2 ≤ 256) :
    ∃ t, exec i s = .next t ∧ (s.flags.e = e → t.pc.toNat = (s.reg r).toNat) ∧
      (s.flags.e = !e → t.pc.toNat = s.pc.toNat + 2) ∧ (∀ j, t.reg j = s.reg j) ∧
      (∀ a, Memory.read t.mem a = Memory.read s.mem a) ∧ t.flags = s.flags ∧ t.run = s.run ∧ t.out = s.out := by
  by_cases htaken : s.flags.e = e
  · rw [if_pos htaken] at h
    exact ⟨_, h, fun _ => zextPc_toNat _, fun hnot => absurd htaken (Bool.eq_not.1 hnot), fun _ => rfl, fun _ => rfl,
      rfl, rfl, rfl⟩
  · rw [if_neg htaken] at h
    exact ⟨_, h, fun he => absurd he htaken, fun _ => advance_pc_toNat hpc, fun _ => rfl, fun _ => rfl, rfl, rfl, rfl⟩

/-- Settles O39: JEQ is taken on E = 1. -/
theorem jeqBranchesOnEqual : Obligations.JeqBranchesOnEqual := fun _ _ _ hb =>
  exec_frame_of_branches (e := true) (exec_jeq_eq hb)

/-- Settles O40: JNE is taken on E = 0. -/
theorem jneBranchesOnNotEqual : Obligations.JneBranchesOnNotEqual := fun s _ _ hb =>
  exec_frame_of_branches (e := false) (by rw [exec_jne_eq hb]; cases s.flags.e <;> rfl)

end Sys2Proof.Machine
end

section
/-! PROOFS. The statements of 60_exceptions.md: what a faulted outcome was raised by, and what it leaves unchanged. -/

namespace Sys2Proof.Machine

variable {s t : State} {i : Instr} {record : FaultRecord}

/-! ## An unassigned byte (R91) -/

/-- Settles O16: no instruction begins with the byte at `pc`, so none lies there, and of the three fetch faults the first
needs a `pc` past memory and the last an assigned byte. -/
theorem unassignedOpcodeFaults : Obligations.UnassignedOpcodeFaults := by
  intro s hrun hpc hno
  obtain ⟨info, hf, hstep⟩ := step_of_no_instruction hrun
    fun i hat => hno i.mnemonic (byteAtPc_eq_opcodeOf hat).symm
  obtain ⟨h255, -⟩ | ⟨-, -, rfl⟩ | ⟨-, hsome, -⟩ := fetchInstr_error hf
  · omega
  · exact hstep
  · simp [lookup_eq_none.2 hno] at hsome

/-! ## A faulted outcome was raised (R96, R98) -/

theorem Completes.not_faulted (h : Completes s i t) (hs : ∀ earlier, s.run ≠ .faulted earlier) :
    t.run ≠ .faulted record := by
  obtain ⟨-, rfl⟩ | hkeep := h.halts_or_keeps_run
  · exact nofun
  · rw [hkeep]; exact hs record

/-- An instruction that leaves a machine faulted, where it was not before, raised one of its own faults. -/
theorem raises_of_exec_faulted (hs : ∀ earlier, s.run ≠ .faulted earlier) (h : exec i s = .next t)
    (ht : t.run = .faulted record) : Raises s i record.info := by
  obtain hc | ⟨info, hr, rfl⟩ := exec_next h
  · exact absurd ht (hc.not_faulted hs)
  · obtain rfl : s.faultRecord info = record := RunStatus.faulted.inj ht
    exact hr

/-- A step that leaves a machine faulted raised a fault, and its outcome is the state it began in with that fault
recorded. -/
theorem stepRaises_of_step_faulted (h : step s = .next t) (ht : t.run = .faulted record) :
    StepRaises s record.info ∧ record = s.faultRecord record.info ∧ t = raise s record.info := by
  obtain ⟨hrun, ⟨i, -, hc⟩ | ⟨info, hr, rfl⟩⟩ := step_eq_next.1 h
  · exact absurd ht (hc.not_faulted (by rw [hrun]; exact nofun))
  · obtain rfl : s.faultRecord info = record := RunStatus.faulted.inj ht
    exact ⟨hr, rfl, rfl⟩

/-- Settles O19: raising writes `run` alone, and the record holds the `pc` of the state it is raised in. -/
theorem faultsArePrecise : Obligations.FaultsArePrecise := by
  intro s t record h ht
  obtain ⟨-, hrec, rfl⟩ := stepRaises_of_step_faulted h ht
  exact ⟨by rw [← ht]; rfl, by rw [hrec]; rfl⟩

/-! ## The kinds of fault (R92, R95) -/

/-- Settles O26: the outcome was raised by the instruction, and its faults are those of its row. -/
theorem onlyTabledFaultsAreRaised : Obligations.OnlyTabledFaultsAreRaised := fun _ _ _ _ hs h ht =>
  mayRaise_of_raises (raises_of_exec_faulted hs h ht)

/-- No row of the fault table and no fault of a fetch is `UnsupportedALUOperation`. -/
theorem not_stepRaises_unsupportedALUOperation : ¬ StepRaises s .unsupportedALUOperation := by
  rintro (hf | ⟨i, -, hr⟩)
  · obtain ⟨-, hinfo⟩ | ⟨-, -, hinfo⟩ | ⟨-, -, -, hinfo⟩ := fetchInstr_error hf <;> cases hinfo
  · exact Bool.false_ne_true (mayRaise_of_raises hr)

/-- Settles O27: a step into such a state would have raised that fault. -/
theorem aluFaultIsUnreachable : Obligations.AluFaultIsUnreachable := fun _ _ _ h ht =>
  not_stepRaises_unsupportedALUOperation (stepRaises_of_step_faulted h ht).1

end Sys2Proof.Machine
end

section
/-! PROOFS. The statements of 70_reset_and_hazards.md about whole runs: what every step keeps holds all along, and how a
run ends. -/

namespace Sys2Proof.Machine

variable {s s' t : State} {k : Nat}

/-! ## A run by its first step -/

theorem core_run_of_step_next (h : step s = .next s') (k : Nat) :
    Host.Core.run Sys2Proof.core (k + 1) s = Host.Core.run Sys2Proof.core k s' := by
  rw [core_run_succ, h]

theorem core_run_of_step_fault {fault : Fault} (h : step s = .fault fault) (k : Nat) :
    Host.Core.run Sys2Proof.core (k + 1) s = .fault fault := by
  rw [core_run_succ, h]

/-- A run that goes on after its first step was begun by a step with a next state. -/
theorem step_next_of_core_run (h : Host.Core.run Sys2Proof.core (k + 1) s = .next t) :
    ∃ s', step s = .next s' ∧ Host.Core.run Sys2Proof.core k s' = .next t := by
  rw [core_run_succ] at h
  cases hs : step s with
  | next s' => exact ⟨s', rfl, by rwa [hs] at h⟩
  | fault r | refused r => rw [hs] at h; cases h

/-! ## What holds all along a run (R111) -/

/-- What every step keeps, every run keeps. -/
theorem core_run_keeps {P : State → Prop} (hkeep : ∀ s t, P s → step s = .next t → P t) (hs : P s)
    (h : Host.Core.run Sys2Proof.core k s = .next t) : P t := by
  induction k generalizing s with
  | zero => cases h; exact hs
  | succ k ih =>
    obtain ⟨s', hstep, hrest⟩ := step_next_of_core_run h
    exact ih (hkeep s s' hs hstep) hrest

/-- Settles O6: the loaded machine meets the invariant, and every step keeps it. -/
theorem everyRunFromAnImageKeepsTheInvariant : Obligations.EveryRunFromAnImageKeepsTheInvariant :=
  fun img s _ _ hboot hrun => core_run_keeps stepKeepsTheInvariant (bootedMachineMeetsTheInvariant img s hboot) hrun

/-! ## How a run ends (R114) -/

/-- Settles O21, of a stopped machine too: a running one takes its first step and the rest is a shorter run, and a
stopped one has come to its end after no step. -/
theorem runsEndOnlyHaltedOrFaulted : Obligations.RunsEndOnlyHaltedOrFaulted := by
  intro s k hs
  clear hs
  induction k generalizing s with
  | zero => exact .inl ⟨s, rfl⟩
  | succ k ih =>
    cases hrun : s.run with
    | running =>
      obtain ⟨s', hstep⟩ := step_answers_of_running hrun
      have hshift (n : Nat) := core_run_of_step_next hstep n
      rw [hshift k]
      refine (ih s').imp_right ?_
      rintro ⟨j, t, hj, hreach, hend⟩
      exact ⟨j + 1, t, Nat.succ_lt_succ hj, (hshift j).trans hreach, hend⟩
    | halted => exact .inr ⟨0, s, k.succ_pos, rfl, .inl ⟨hrun, core_run_of_step_fault (step_of_halted hrun) k⟩⟩
    | faulted record =>
      exact .inr ⟨0, s, k.succ_pos, rfl, .inr ⟨record, hrun, core_run_of_step_fault (step_of_faulted hrun) k⟩⟩

end Sys2Proof.Machine
end
